-- ==== Sys2Proof/Word.lean ====
section
/-! DEFINITION. The three widths of the block: 32-bit register words (10_state.md R28), frame-buffer bytes (20_memory.md R70)
and nibbles (20_memory.md R72). -/

namespace Sys2Proof

/-- A register word; also a command word (R28, R90). -/
abbrev Word := BitVec 32

/-- A frame-buffer byte (R70). -/
abbrev Byte := BitVec 8

/-- A nibble: a value 0..15 (R72). -/
abbrev Nibble := BitVec 4

end Sys2Proof
end

