-- ==== Sys2Proof/Syntax.lean ====
section
/-! DEFINITION. The commands, one constructor for each row of spec/opcode_table.json (30_encoding.md R97). -/

namespace Sys2Proof

/-- A legal command. `byte` and `hi` are the start position of the window commands (R92, R93; `hi = true` is HI = 1,
the high nibble first); `ch` is BATT's channel (R94). -/
inductive Instr where
  /-- NIB: one digit, 0..15 (R110). -/
  | nib (byte : Byte) (hi : Bool)
  /-- BCD2: two digits, `10*tens + units` (R112). -/
  | bcd2 (byte : Byte) (hi : Bool)
  /-- OVF2: overflow predicate over 2 nibbles (R124). -/
  | ovf2 (byte : Byte) (hi : Bool)
  /-- ERR2: error predicate over 2 nibbles (R125). -/
  | err2 (byte : Byte) (hi : Bool)
  /-- OVF3: overflow predicate over 3 nibbles (R126). -/
  | ovf3 (byte : Byte) (hi : Bool)
  /-- ERR3: error predicate over 3 nibbles (R127). -/
  | err3 (byte : Byte) (hi : Bool)
  /-- TEMP: temperature decode (R131). -/
  | temp (byte : Byte) (hi : Bool)
  /-- HUM: humidity decode (R133). -/
  | hum (byte : Byte) (hi : Bool)
  /-- TS8: 8-nibble timestamp decode (R144). -/
  | ts8 (byte : Byte) (hi : Bool)
  /-- TS10: 10-nibble timestamp decode (R147). -/
  | ts10 (byte : Byte) (hi : Bool)
  /-- PARSE: decode the whole frame (R163). -/
  | parse
  /-- BATT: battery status of one channel (R174). -/
  | batt (ch : BitVec 4)
deriving DecidableEq, Repr

end Sys2Proof
end

