-- ==== Sys2Proof/WellFormed.lean ====
section
/-! DEFINITION. Which terms of Instr are commands: every field fits by its type but BATT's channel, which must be 0..8
(30_encoding.md R94, R99). -/

namespace Sys2Proof

/-- The one check the types do not make: BATT names a channel 0..8 (R94). -/
def Instr.wellFormed : Instr → Bool
  | .nib _ _ => true
  | .bcd2 _ _ => true
  | .ovf2 _ _ => true
  | .err2 _ _ => true
  | .ovf3 _ _ => true
  | .err3 _ _ => true
  | .temp _ _ => true
  | .hum _ _ => true
  | .ts8 _ _ => true
  | .ts10 _ _ => true
  | .parse => true
  | .batt ch => decide (ch.toNat ≤ 8)

end Sys2Proof
end

