-- ==== Sys2Proof/Decode.lean ====
section
/-! DEFINITION. The command word CMD32 (30_encoding.md R90): its fields, the decoder, the illegal words of R99, the encoder of
R102, and the opcode map's masks and matches (R97, R98). -/

namespace Sys2Proof

/-- OP = v[3:0] (R91). -/
def opOf (v : Word) : BitVec 4 := v.extractLsb' 0 4

/-- HI = v[4] (R92). -/
def hiOf (v : Word) : Bool := v.getLsbD 4

/-- RES0 = v[7:5] (R95). -/
def res0Of (v : Word) : BitVec 3 := v.extractLsb' 5 3

/-- BYTE = v[15:8] (R93). -/
def byteOf (v : Word) : Byte := v.extractLsb' 8 8

/-- CH = v[19:16] (R94). -/
def chOf (v : Word) : BitVec 4 := v.extractLsb' 16 4

/-- RES1 = v[31:20] (R95). -/
def res1Of (v : Word) : BitVec 12 := v.extractLsb' 20 12

/-- Why a word is no command (R99). -/
inductive Reject where
  /-- OP is 0x0 or 0xD..0xF. -/
  | reservedOp (op : BitVec 4)
  /-- A bit of RES0 or RES1 is set. -/
  | reservedBitSet
  /-- A field the operation does not use is not 0 (R98). -/
  | unusedFieldSet
  /-- BATT with CH in 9..15. -/
  | channelOutOfRange (ch : BitVec 4)
deriving DecidableEq, Repr

/-- The form of OP 0x1 to 0xA: BYTE and HI are the operands, and CH must be 0 (R96, R98). -/
def windowForm (mk : Byte → Bool → Instr) (v : Word) : Except Reject Instr :=
  if chOf v = 0 then .ok (mk (byteOf v) (hiOf v)) else .error .unusedFieldSet

/-- The decoder, total on 32-bit words: every word is one command or is rejected by name (R97 to R100). -/
def decode (v : Word) : Except Reject Instr :=
  if res0Of v ≠ 0 ∨ res1Of v ≠ 0 then .error .reservedBitSet
  else
    match (opOf v).toNat with
    | 0x1 => windowForm .nib v
    | 0x2 => windowForm .bcd2 v
    | 0x3 => windowForm .ovf2 v
    | 0x4 => windowForm .err2 v
    | 0x5 => windowForm .ovf3 v
    | 0x6 => windowForm .err3 v
    | 0x7 => windowForm .temp v
    | 0x8 => windowForm .hum v
    | 0x9 => windowForm .ts8 v
    | 0xA => windowForm .ts10 v
    | 0xB =>
      if hiOf v = false ∧ byteOf v = 0 ∧ chOf v = 0 then .ok .parse else .error .unusedFieldSet
    | 0xC =>
      if hiOf v = false ∧ byteOf v = 0 then
        if (chOf v).toNat ≤ 8 then .ok (.batt (chOf v)) else .error (.channelOutOfRange (chOf v))
      else .error .unusedFieldSet
    | _ => .error (.reservedOp (opOf v))

/-- `illegal(v)` as R99 writes it, field by field. -/
def illegal (v : Word) : Bool :=
  decide ((opOf v).toNat = 0x0) || decide ((opOf v).toNat ≥ 0xD)
  || decide (v.extractLsb' 5 3 ≠ 0)
  || decide (v.extractLsb' 20 12 ≠ 0)
  || (decide (1 ≤ (opOf v).toNat ∧ (opOf v).toNat ≤ 0xA) && decide (v.extractLsb' 16 4 ≠ 0))
  || (decide ((opOf v).toNat = 0xB) && decide (v.extractLsb' 4 16 ≠ 0))
  || (decide ((opOf v).toNat = 0xC)
      && (decide (v.extractLsb' 4 12 ≠ 0) || decide ((v.extractLsb' 16 4).toNat > 8)))

/-- The word with the given OP, HI, BYTE and CH and reserved bits 0: `op + (HI<<4) + (byte<<8) + (ch<<16)` (R102). -/
def assembleWord (op : Nat) (hi : Bool) (byte : Byte) (ch : BitVec 4) : Word :=
  BitVec.ofNat 32 (op + hi.toNat * 2 ^ 4 + byte.toNat * 2 ^ 8 + ch.toNat * 2 ^ 16)

/-- The encoder (R102), with the OP values of R97. -/
def encode : Instr → Word
  | .nib byte hi => assembleWord 0x1 hi byte 0
  | .bcd2 byte hi => assembleWord 0x2 hi byte 0
  | .ovf2 byte hi => assembleWord 0x3 hi byte 0
  | .err2 byte hi => assembleWord 0x4 hi byte 0
  | .ovf3 byte hi => assembleWord 0x5 hi byte 0
  | .err3 byte hi => assembleWord 0x6 hi byte 0
  | .temp byte hi => assembleWord 0x7 hi byte 0
  | .hum byte hi => assembleWord 0x8 hi byte 0
  | .ts8 byte hi => assembleWord 0x9 hi byte 0
  | .ts10 byte hi => assembleWord 0xA hi byte 0
  | .parse => assembleWord 0xB false 0 0
  | .batt ch => assembleWord 0xC false 0 ch

/-- The mnemonics of the opcode map (R97). -/
inductive Mnemonic where
  | NIB | BCD2 | OVF2 | ERR2 | OVF3 | ERR3 | TEMP | HUM | TS8 | TS10 | PARSE | BATT
deriving DecidableEq, Repr

/-- A command's row of the opcode map (R97). -/
def Instr.mnemonic : Instr → Mnemonic
  | .nib _ _ => .NIB
  | .bcd2 _ _ => .BCD2
  | .ovf2 _ _ => .OVF2
  | .err2 _ _ => .ERR2
  | .ovf3 _ _ => .OVF3
  | .err3 _ _ => .ERR3
  | .temp _ _ => .TEMP
  | .hum _ _ => .HUM
  | .ts8 _ _ => .TS8
  | .ts10 _ _ => .TS10
  | .parse => .PARSE
  | .batt _ => .BATT

/-- The row's `mask`: the bits every word of the row agrees on (R98, opcode_table.json). -/
def Mnemonic.mask : Mnemonic → Word
  | .PARSE => 0xFFFFFFFF
  | .BATT => 0xFFF0FFFF
  | .NIB | .BCD2 | .OVF2 | .ERR2 | .OVF3 | .ERR3 | .TEMP | .HUM | .TS8 | .TS10 => 0xFFFF00EF

/-- The row's `match`: the value of those bits (R97, R98, opcode_table.json). -/
def Mnemonic.matchBits : Mnemonic → Word
  | .NIB => 0x00000001
  | .BCD2 => 0x00000002
  | .OVF2 => 0x00000003
  | .ERR2 => 0x00000004
  | .OVF3 => 0x00000005
  | .ERR3 => 0x00000006
  | .TEMP => 0x00000007
  | .HUM => 0x00000008
  | .TS8 => 0x00000009
  | .TS10 => 0x0000000A
  | .PARSE => 0x0000000B
  | .BATT => 0x0000000C

/-- The word of a table row, its bits numbered as spec/opcode_table.json numbers them, given to the decoder. Every command is
one 32-bit word (R101), so the word is what is written to CMD; the bits above `nbits` are 0. -/
def decodeTableWord (nbits w : Nat) : Option Instr :=
  (decode (BitVec.ofNat 32 (w % 2 ^ nbits))).toOption

end Sys2Proof
end

