-- ==== Sys2Proof/Config.lean ====
section
/-! DEFINITION. What is fixed for one machine: the implementation parameters of 00_scope.md R8 and the free values.
The OPEN parameters are opaque constants without a body, so whatever is proved holds for every value they may take. -/

namespace Sys2Proof

/-- `BUF_CAP`: the frame buffer's capacity in bytes (R8). -/
def Config.bufCap : Nat := 256

/-- `MIN_FRAME_LEN`: below this length a frame is short (R8, 92_eei_decisions.md D29). -/
def Config.minFrameLen : Nat := 230

/-- `STRIDE`: bytes from one channel's block to the next (R8, R160). -/
def Config.stride : Nat := 24

/-- `SIGQ_BYTE`: where the signal quality stands (R8, R165). -/
def Config.sigqByte : Nat := 4

/-- `ALARM_BASE`: the first of the 12 alarm bytes (R8, R168). -/
def Config.alarmBase : Nat := 223

/-- `TEMP_OFFSET`: the temperature zero point in tenths of a degree (R8, R130). -/
def Config.tempOffset : Int := 400

/-- `YEAR_BASE`: the timestamps' year epoch (R8, R140). -/
def Config.yearBase : Nat := 2000

/-- `HUM_NP`: the humidity VALUE that stands for "not present" (R8, R48). -/
def Config.humNotPresent : BitVec 8 := 110

/-- `HUM_OFL`: the humidity VALUE that stands for "out of limits" (R8, R48). -/
def Config.humOutOfLimits : BitVec 8 := 121

/-- `POS0`: row 0 of the position table, one start position for each column, each held as its nibble index
2*byte + (1 - hi) (R71). The byte of column 0 is 26, so only its alignment is open (R9(a)). For the other columns
the bound is R9(b) solved for row 0: the window of channel 8 starts 48*8 = 384 nibbles further on and must end by
nibble 511, so a window of 3, 2 or 8 nibbles starts below 126, 127 or 121. The type therefore holds the tables R9
admits and no others (Laws/Params.lean proves both directions). -/
structure Pos0 where
  hi0  : Bool
  col1 : Fin 126
  col2 : Fin 126
  col3 : Fin 121
  col4 : Fin 121
  col5 : Fin 127
  col6 : Fin 127
  col7 : Fin 127
  col8 : Fin 121
  col9 : Fin 121
deriving DecidableEq, Repr, Inhabited

/-- The three parameters that stay named arguments of the model's functions (92_eei_decisions.md, D12, D15, D17). -/
structure Params where
  pos0          : Pos0
  ts8ErrPattern : Vector Nibble 8
  baseBattBit   : Fin 8
deriving DecidableEq, Repr

/-- OPEN parameter `POS0` (R8, D15): any table R9 admits. Assumption log 3. -/
opaque Config.pos0 : Pos0

/-- OPEN parameter `TS8_ERR_PATTERN` (R8, D12): any 8 nibbles. Assumption log 3. -/
opaque Config.ts8ErrPattern : Vector Nibble 8

/-- `BASE_BATT_BIT`: bit 7 of alarm byte 1, the value R8 and R172 give it. Assumption log 4. -/
def Config.baseBattBit : Fin 8 := 7

/-- The parameters of the machine that `step` runs. -/
def Config.params : Params :=
  { pos0 := Config.pos0, ts8ErrPattern := Config.ts8ErrPattern, baseBattBit := Config.baseBattBit }

/-- FREE VALUE: which of a command's faulting reads is the one reported (60_exceptions.md R196(3),
93_implementation_defined.md U5: "any value"). It is applied to State's `accessCount`. Assumption log 5. -/
opaque Config.faultPick : Nat → Nat

end Sys2Proof
end

