-- ==== Sys2Proof/Machine/State.lean ====
section
/-! DEFINITION. The block's state as plain data (10_state.md R25), the host accesses that drive it (30_encoding.md R103), the
reasons a step can stop, and the state after reset (70_reset_and_hazards.md R211). -/

namespace Sys2Proof.Machine

/-- Why a step stops with a fault: the model faults of 60_exceptions.md R195. Both are SAFE: hardware would go on with some
unspecified byte, and the model stops, so no claim can rest on that byte (R194). -/
inductive Fault where
  /-- MF1 FbUnwritten: a read of FB byte `i` that was not written since reset. Raised by MemRead (R74), so by every window
  command and PARSE, and by a host read of FB (R77). Safe. -/
  | fbUnwritten (i : Nat)
  /-- MF2 FbBeyondCapacity: a read of FB byte `i` with `i` at or above 256. Raised by MemRead (R74) for window commands near
  byte 255. Safe. -/
  | fbBeyondCapacity (i : Nat)
deriving DecidableEq, Repr

/-- Why a step is refused. No arm of `exec` refuses: every command has its meaning, and an illegal word is a next state
(R105). -/
inductive Refusal where
  /-- An instruction without a meaning in the model. Raised by nobody here; it would be safe. -/
  | notModelled (mnemonic : String)
deriving DecidableEq, Repr

/-- The STATUS register's five bits (R33). Bits 31:5 hold nothing and read 0, so they are not state. -/
structure Status where
  /-- Bit 0: a command has completed since reset (R34). -/
  done : Bool
  /-- Bit 1: the most recent PARSE found a short frame (R35). -/
  short : Bool
  /-- Bit 2: the most recent command read an FB byte at an index at or above LEN (R36). -/
  oor : Bool
  /-- Bit 3: the most recent command was illegal (R37). -/
  ill : Bool
  /-- Bit 4: a PARSE has completed since reset (R38). -/
  parsed : Bool
deriving DecidableEq, Repr

/-- One access of the host, in the notation of R103. An access to 8-bit addresses cannot leave either space (R28, R76). -/
inductive HostOp where
  /-- `FWR i, v`: write byte `v` to FB byte `i` (R76). -/
  | fwr (i : BitVec 8) (v : Byte)
  /-- `FRD i`: read FB byte `i` (R77). -/
  | frd (i : BitVec 8)
  /-- `HWR a, v`: write word `v` to the register at address `a` (R29); to CMD it runs the command `v` (R32). -/
  | hwr (a : BitVec 8) (v : Word)
  /-- `HRD a`: read the register at address `a` (R29). -/
  | hrd (a : BitVec 8)
  /-- `RESET`: the reset event (R210). -/
  | reset
deriving DecidableEq, Repr

/-- What a host read returned. -/
inductive HostAnswer where
  /-- `FRD i` returned `v`. -/
  | fbByte (i : BitVec 8) (v : Byte)
  /-- `HRD a` returned `v`. -/
  | regWord (a : BitVec 8) (v : Word)
deriving DecidableEq, Repr

/-- The frame buffer: the bytes written since reset, addresses strictly rising (`Memory.wf`). An address is listed exactly
when its written-mark W is 1 (R52); an unlisted address holds no value that any access could return (R212). -/
abbrev Memory := List Host.Cell

/-- The frame output registers, `Out[c][f]` (R45). -/
abbrev FrameOut := Vector (Vector Word 10) 9

/-- The whole state. The first block of fields is the spec's (R25); the last three are the model's own (assumption log 1, 5). -/
structure State where
  /-- CMD, the last command word written (R32). -/
  cmd : Word
  /-- STATUS (R33). -/
  status : Status
  /-- LEN[8:0], the frame length 0..256 (R39). -/
  len : BitVec 9
  /-- CAPT_IN, the host's capture time for the next PARSE (R40). -/
  captIn : Word
  /-- RESULT of the last single-field command (R41). -/
  result : Word
  /-- SIGQ[6:0] (R42). -/
  sigq : BitVec 7
  /-- CAPT, the capture time of the last PARSE (R43). -/
  capt : Word
  /-- ALARM[0..11] (R49). -/
  alarm : Vector Byte 12
  /-- Out[c][f] (R45). -/
  out : FrameOut
  /-- The hidden latch `latch_oor` (R53, R75). -/
  latchOor : Bool
  /-- FB with its written-marks (R52). -/
  fb : Memory
  /-- MODEL: the host accesses still to be issued, first one first (R83). -/
  pending : List HostOp
  /-- MODEL: what the host's reads have returned, oldest first. -/
  answers : List HostAnswer
  /-- MODEL: how many host accesses have been performed; the argument of `Config.faultPick`. -/
  accessCount : Nat
deriving DecidableEq, Repr

/-- The state right after reset (R211), with no host access waiting. -/
def State.reset : State where
  cmd := 0x00000000
  status := { done := false, short := false, oor := false, ill := false, parsed := false }
  len := 0
  captIn := 0
  result := 0
  sigq := 0
  capt := 0
  alarm := Vector.replicate 12 0
  out := Vector.replicate 9
    #v[0x00010000, 0x00010000, 0x00010000, 0, 0, 0x0001006E, 0x0001006E, 0x0001006E, 0, 0]
  latchOor := false
  fb := []
  pending := []
  answers := []
  accessCount := 0

end Sys2Proof.Machine
end

