-- ==== Sys2Proof/Machine/Flags.lean ====
section
/-! DEFINITION. STATUS: the word the host reads (10_state.md R33) and its update at the end of a command (R34 to R38,
30_encoding.md R105). -/

namespace Sys2Proof.Machine

/-- The STATUS word: DONE is bit 0, SHORT bit 1, OOR bit 2, ILL bit 3, PARSED bit 4, the rest 0 (R33). -/
def Status.toWord (st : Status) : Word :=
  0#27 ++ BitVec.ofBool st.parsed ++ BitVec.ofBool st.ill ++ BitVec.ofBool st.oor
    ++ BitVec.ofBool st.short ++ BitVec.ofBool st.done

/-- The common update of a legal command whose latch ends as `oor`: ILL <- 0, OOR <- latch_oor, DONE <- 1 (R105). -/
def State.completeLegal (s : State) (oor : Bool) : State :=
  { s with
    latchOor := oor
    status := { s.status with ill := false, oor := oor, done := true } }

/-- An illegal command clears the latch and writes ILL <- 1, OOR <- 0, DONE <- 1; nothing else changes (R99, R105). -/
def State.completeIllegal (s : State) : State :=
  { s with
    latchOor := false
    status := { s.status with ill := true, oor := false, done := true } }

/-- PARSE's own STATUS bits: SHORT as found, PARSED <- 1 (R35, R38). -/
def State.markParsed (s : State) (short : Bool) : State :=
  { s with status := { s.status with short := short, parsed := true } }

end Sys2Proof.Machine
end

