-- ==== Sys2Proof/Machine/Ops.lean ====
section
/-! DEFINITION. The frame buffer (20_memory.md R70, R76), the read primitive MemRead (R74), how the reads of one command are put
together, the model fault (60_exceptions.md R194, R196), and how a legal command ends (30_encoding.md R105). The block
takes no exception (R190): the model fault is the only way a command does not complete. -/

namespace Sys2Proof.Machine

/-! ### The frame buffer -/

/-- The byte at address `i`: `none` where the written-mark is 0 (R52). -/
def Memory.read : Memory → Nat → Option Byte
  | [], _ => none
  | (a, b) :: m, i => if a = i then some b else Memory.read m i

/-- `FB[i] <- v; W[i] <- 1` (R76), keeping the addresses strictly rising. -/
def Memory.write : Memory → Nat → Byte → Memory
  | [], i, v => [(i, v)]
  | (a, b) :: m, i, v =>
    if a = i then (i, v) :: m
    else if i < a then (i, v) :: (a, b) :: m
    else (a, b) :: Memory.write m i v

/-- Every address of the list is at or above `lo` and below 256, and the addresses rise strictly. -/
def Memory.risingFrom : Nat → Memory → Bool
  | _, [] => true
  | lo, (a, _) :: m => decide (lo ≤ a) && decide (a < Config.bufCap) && Memory.risingFrom (a + 1) m

/-- The canonical form: addresses of 0..255, strictly rising. -/
def Memory.wf (m : Memory) : Bool := Memory.risingFrom 0 m

/-! ### Reads put together -/

/-- What a group of FB reads gives: a value, with the addresses read; or, where some read model-faults, the faults of the
reads that do, the first of them apart so that the list is never empty. -/
inductive Fetch (α : Type) where
  | got (value : α) (reads : List Nat)
  | failed (first : Fault) (others : List Fault)
deriving DecidableEq, Repr

/-- Apply a function to the value read. -/
def Fetch.map {α β : Type} (g : α → β) : Fetch α → Fetch β
  | .got v rs => .got (g v) rs
  | .failed f fs => .failed f fs

/-- Both groups are read; either may fault, and all faults stay candidates (R196(3)). -/
def Fetch.both {α β γ : Type} (g : α → β → γ) : Fetch α → Fetch β → Fetch γ
  | .got v rs, .got w qs => .got (g v w) (rs ++ qs)
  | .got _ _, .failed f fs => .failed f fs
  | .failed f fs, .got _ _ => .failed f fs
  | .failed f fs, .failed e es => .failed f (fs ++ e :: es)

/-- `n` groups, read in order. -/
def Fetch.collect {α : Type} : (n : Nat) → (Fin n → Fetch α) → Fetch (Vector α n)
  | 0, _ => .got #v[] []
  | n + 1, g => Fetch.both Vector.push (Fetch.collect n (fun j => g j.castSucc)) (g (Fin.last n))

/-- `MemRead(i, 1)` (R74): beyond the capacity and unwritten bytes model-fault, in that order; any other byte is returned.
That the address is at or above LEN is recorded by `State.latched`. -/
def memRead (s : State) (i : Nat) : Fetch Byte :=
  if Config.bufCap ≤ i then .failed (.fbBeyondCapacity i) []
  else
    match Memory.read s.fb i with
    | none => .failed (.fbUnwritten i) []
    | some b => .got b [i]

/-- `latch_oor` at the end of a command that read these addresses: cleared at its start, set by a read of an index at or
above LEN (R74, R75). -/
def State.latched (s : State) (reads : List Nat) : Bool :=
  reads.any (fun i => decide (s.len.toNat ≤ i))

/-! ### How a command ends -/

/-- The model fault a command reports: any one of its faulting reads, by the free value `Config.faultPick` (R196(3), U5).
A single faulting read is reported as it is. -/
def pickFault (s : State) (first : Fault) : List Fault → Fault
  | [] => first
  | f :: fs => (first :: f :: fs).getD (Config.faultPick s.accessCount % (fs.length + 2)) first

/-- The end of a legal command (R105): a model fault ends it with nothing written (R194); else its results are committed,
then STATUS takes the common update. -/
def finishCommand {α : Type} (s : State) (r : Fetch α) (commit : State → α → State) :
    Host.Outcome State Fault Refusal :=
  match r with
  | .got v reads => .next ((commit s v).completeLegal (s.latched reads))
  | .failed f fs => .fault (pickFault s f fs)

/-- A single-field command commits its result to RESULT (R41). -/
def finishResult (s : State) (r : Fetch Word) : Host.Outcome State Fault Refusal :=
  finishCommand s r (fun t v => { t with result := v })

end Sys2Proof.Machine
end

