-- ==== Sys2Proof/Machine/Operands.lean ====
section
/-! DEFINITION. Start positions, nibbles and windows: the one operand form of the block (20_memory.md R71 to R73,
30_encoding.md R96). -/

namespace Sys2Proof.Machine

/-- A start position (BYTE, HI) (R71). -/
structure StartPos where
  byte : Nat
  hi   : Bool
deriving DecidableEq, Repr

/-- `N(BYTE, HI) = 2*BYTE + (1 - HI)`: the nibble index of a start position (R71). -/
def nibbleIndex (byte : Nat) (hi : Bool) : Nat := 2 * byte + (1 - hi.toNat)

/-- The nibble that nibble index `n` selects in its byte: the high one where `n` is even, the low one where it is odd (R72). -/
def nibbleOf (b : Byte) (n : Nat) : Nibble :=
  if n % 2 = 0 then b.extractLsb' 4 4 else b.extractLsb' 0 4

/-- `nib(n)` (R72). -/
def nib (s : State) (n : Nat) : Fetch Nibble := (memRead s (n / 2)).map (fun b => nibbleOf b n)

/-- How many bytes a window of `k` nibbles at `n` spans: `n >> 1` through `(n+k-1) >> 1` (R73). -/
def spanLen (n k : Nat) : Nat := (n + k - 1) / 2 - n / 2 + 1

/-- The bytes of a window, each read once (R73). -/
def spanBytes (s : State) (n k : Nat) : Fetch (Vector Byte (spanLen n k)) :=
  Fetch.collect (spanLen n k) (fun j => memRead s (n / 2 + j.val))

/-- `win(n, k) = [nib(n), ..., nib(n+k-1)]`, element 0 first (R73). -/
def win (s : State) (n k : Nat) : Fetch (Vector Nibble k) :=
  (spanBytes s n k).map fun bytes =>
    Vector.ofFn fun (j : Fin k) =>
      nibbleOf (bytes[(n + j.val) / 2 - n / 2]'(by have := j.isLt; unfold spanLen; omega)) (n + j.val)

/-- The window of a window command: `k` nibbles at its start position (R96). -/
def operandWindow (s : State) (byte : Byte) (hi : Bool) (k : Nat) : Fetch (Vector Nibble k) :=
  win s (nibbleIndex byte.toNat hi) k

end Sys2Proof.Machine
end

