-- ==== Sys2Proof/Machine/Sentinels.lean ====
section
/-! DEFINITION. Sentinel detection: the two predicates, the classification with its precedence, and OVF2, ERR2, OVF3, ERR3
(41_sentinel_detect.md R120 to R127). -/

namespace Sys2Proof.Machine

/-- `ovf(w)`: some nibble is 15 (R120). -/
def ovf {k : Nat} (w : Vector Nibble k) : Bool := w.toList.any (fun x => decide (x.toNat = 15))

/-- `err(w)`: some nibble is in 10..14 (R121). -/
def err {k : Nat} (w : Vector Nibble k) : Bool :=
  w.toList.any (fun x => decide (10 ≤ x.toNat ∧ x.toNat ≤ 14))

/-- The three states of a reading; a fourth TAG is never produced (R44). -/
inductive Tag where
  | valid
  | notPresent
  | outOfLimits
deriving DecidableEq, Repr

/-- The TAG field's encoding (R44). -/
def Tag.code : Tag → BitVec 2
  | .valid => 0
  | .notPresent => 1
  | .outOfLimits => 2

/-- `classify(w)`: overflow first, then error, then valid (R122). -/
def classify {k : Nat} (w : Vector Nibble k) : Tag :=
  if ovf w then .outOfLimits else if err w then .notPresent else .valid

/-- A predicate as a result word: 1 for true, 0 for false (R11). -/
def boolWord (b : Bool) : Word := (BitVec.ofBool b).setWidth 32

/-- OVF2 (R124). -/
def execOvf2 (byte : Byte) (hi : Bool) (s : State) : Host.Outcome State Fault Refusal :=
  finishResult s ((operandWindow s byte hi 2).map (fun w => boolWord (ovf w)))

/-- ERR2 (R125). -/
def execErr2 (byte : Byte) (hi : Bool) (s : State) : Host.Outcome State Fault Refusal :=
  finishResult s ((operandWindow s byte hi 2).map (fun w => boolWord (err w)))

/-- OVF3 (R126). -/
def execOvf3 (byte : Byte) (hi : Bool) (s : State) : Host.Outcome State Fault Refusal :=
  finishResult s ((operandWindow s byte hi 3).map (fun w => boolWord (ovf w)))

/-- ERR3 (R127). -/
def execErr3 (byte : Byte) (hi : Bool) (s : State) : Host.Outcome State Fault Refusal :=
  finishResult s ((operandWindow s byte hi 3).map (fun w => boolWord (err w)))

end Sys2Proof.Machine
end

