-- ==== Sys2Proof/Machine/Fields.lean ====
section
/-! DEFINITION. The temperature and humidity decoders, TEMP and HUM (42_field_decoders.md R130 to R133). -/

namespace Sys2Proof.Machine

/-- A temperature word: VALUE[15:0], TAG[17:16], the rest 0 (R46). -/
def tempWord (tag : Tag) (value : BitVec 16) : Word := 0#14 ++ tag.code ++ value

/-- A humidity word: VALUE[7:0], TAG[17:16], the rest 0 (R48). -/
def humWord (tag : Tag) (value : BitVec 8) : Word := 0#14 ++ tag.code ++ 0#8 ++ value

/-- TAG[17:16] of a temperature or humidity word (R46, R48). -/
def tagField (v : Word) : BitVec 2 := v.extractLsb' 16 2

/-- `100*d0 + 10*d1 + d2 - 400`, tenths of a degree, computed exactly (R130). -/
def tenths (w : Vector Nibble 3) : Int :=
  100 * (w[0].toNat : Int) + 10 * (w[1].toNat : Int) + (w[2].toNat : Int) - Config.tempOffset

/-- `decTemp` of a 3-nibble window: sentinels carry VALUE 0, a valid reading its tenths in two's complement (R130). -/
def decTemp (w : Vector Nibble 3) : Word :=
  match classify w with
  | .outOfLimits => tempWord .outOfLimits 0
  | .notPresent => tempWord .notPresent 0
  | .valid => tempWord .valid (BitVec.ofInt 16 (tenths w))

/-- `decHum` of a 2-nibble window: sentinels carry 121 and 110, a valid reading its two digits, no offset (R132). -/
def decHum (w : Vector Nibble 2) : Word :=
  match classify w with
  | .outOfLimits => humWord .outOfLimits Config.humOutOfLimits
  | .notPresent => humWord .notPresent Config.humNotPresent
  | .valid => humWord .valid (BitVec.ofNat 8 (10 * w[0].toNat + w[1].toNat))

/-- TEMP (R131). -/
def execTemp (byte : Byte) (hi : Bool) (s : State) : Host.Outcome State Fault Refusal :=
  finishResult s ((operandWindow s byte hi 3).map decTemp)

/-- HUM (R133). -/
def execHum (byte : Byte) (hi : Bool) (s : State) : Host.Outcome State Fault Refusal :=
  finishResult s ((operandWindow s byte hi 2).map decHum)

end Sys2Proof.Machine
end

