-- ==== Sys2Proof/Machine/Primitives.lean ====
section
/-! DEFINITION. The nibble and digit primitives, NIB and BCD2 (40_nibble_primitives.md R110 to R112). -/

namespace Sys2Proof.Machine

/-- `10*tens + units`, 0..165; neither nibble is checked (R111). -/
def bcd2 (tens units : Nibble) : Nat := 10 * tens.toNat + units.toNat

/-- NIB: the raw nibble, zero-extended (R110). -/
def execNib (byte : Byte) (hi : Bool) (s : State) : Host.Outcome State Fault Refusal :=
  finishResult s ((nib s (nibbleIndex byte.toNat hi)).map (fun d => d.setWidth 32))

/-- BCD2: the two-digit value of the window (R112). -/
def execBcd2 (byte : Byte) (hi : Bool) (s : State) : Host.Outcome State Fault Refusal :=
  finishResult s ((operandWindow s byte hi 2).map (fun w => BitVec.ofNat 32 (bcd2 w[0] w[1])))

end Sys2Proof.Machine
end

