-- ==== Sys2Proof/Machine/Timestamps.lean ====
section
/-! DEFINITION. The timestamp decoders, TS8 and TS10 (43_timestamp_decoders.md R140 to R147). -/

namespace Sys2Proof.Machine

/-- ABSENT: the all-zero timestamp word (R47). -/
def absentTs : Word := 0x00000000

/-- `tsword`: PRESENT = 1, bits 30:28 = 0, YOFF, MONTH, DAY, HOUR, MINUTE (R47, R140). -/
def tsword (year month day hour minute : Nat) : Word :=
  1#1 ++ 0#3 ++ BitVec.ofNat 8 (year - Config.yearBase) ++ BitVec.ofNat 4 month ++ BitVec.ofNat 5 day
    ++ BitVec.ofNat 5 hour ++ BitVec.ofNat 6 minute

/-- `calOk`: ranges only; neither the year nor the length of the month is checked (R140). -/
def calOk (month day hour minute : Nat) : Bool :=
  decide (1 ≤ month ∧ month ≤ 12 ∧ 1 ≤ day ∧ day ≤ 31 ∧ hour ≤ 23 ∧ minute ≤ 59)

/-- A timestamp that passed the calendar check, or ABSENT (R140, R143, R146). -/
def checkedTs (year month day hour minute : Nat) : Word :=
  if calOk month day hour minute then tsword year month day hour minute else absentTs

/-- The hour of the 8-nibble form (R142): 10 more where tim1 is 10 or above, 10 more where tim2 is. -/
def carryHour (tim1 tim2 : Nibble) : Nat :=
  (if 10 ≤ tim1.toNat then tim1.toNat + 10 else tim1.toNat) + (if 10 ≤ tim2.toNat then 10 else 0)

/-- The minute of the 8-nibble form (R142): tim3 is added with its raw value. -/
def carryMinute (tim2 tim3 : Nibble) : Nat :=
  (if 10 ≤ tim2.toNat then (tim2.toNat - 10) * 10 else tim2.toNat * 10) + tim3.toNat

/-- `decTS8` of an 8-nibble window: the exact error pattern first, then the calendar check (R143). -/
def decTS8 (pattern w : Vector Nibble 8) : Word :=
  if w = pattern then absentTs
  else
    checkedTs (Config.yearBase + bcd2 w[0] w[1]) w[2].toNat (bcd2 w[3] w[4])
      (carryHour w[5] w[6]) (carryMinute w[6] w[7])

/-- `decTS10` of a 10-nibble window: the error predicate on each two-nibble field, then the calendar check (R145, R146).
DESIGN CHOICE, assumption log 13: R146's second bullet says that a month, day, hour or minute field holding a 15 fails the range
check; its pseudocode and D13 leave it to the value, so that a day of 15 or 25, an hour of 15 and a minute of 15, 25, 35, 45 or 55
written with a nibble 15 pass. The model takes the pseudocode. -/
def decTS10 (w : Vector Nibble 10) : Word :=
  if err #v[w[0], w[1]] || err #v[w[2], w[3]] || err #v[w[4], w[5]] || err #v[w[6], w[7]]
      || err #v[w[8], w[9]] then absentTs
  else
    checkedTs (Config.yearBase + bcd2 w[0] w[1]) (bcd2 w[2] w[3]) (bcd2 w[4] w[5])
      (bcd2 w[6] w[7]) (bcd2 w[8] w[9])

/-- TS8 with a given error pattern (R144). -/
def ts8Command (p : Params) (byte : Byte) (hi : Bool) (s : State) : Host.Outcome State Fault Refusal :=
  finishResult s ((operandWindow s byte hi 8).map (decTS8 p.ts8ErrPattern))

/-- TS8 of this machine (R144). -/
def execTs8 (byte : Byte) (hi : Bool) (s : State) : Host.Outcome State Fault Refusal :=
  ts8Command Config.params byte hi s

/-- TS10 (R147). -/
def execTs10 (byte : Byte) (hi : Bool) (s : State) : Host.Outcome State Fault Refusal :=
  finishResult s ((operandWindow s byte hi 10).map decTS10)

end Sys2Proof.Machine
end

