-- ==== Sys2Proof/Machine/Frame.lean ====
section
/-! DEFINITION. The frame demultiplexer: the position table, the columns, PARSE, and the battery status with BATT
(44_frame_demux.md R160 to R174). -/

namespace Sys2Proof.Machine

/-! ### The position table -/

/-- Row 0 of the table as nibble indices; column 0 stands at byte 26 (R160, R9). -/
def Pos0.indices (p : Pos0) : Vector Nat 10 :=
  #v[nibbleIndex 26 p.hi0, p.col1.val, p.col2.val, p.col3.val, p.col4.val, p.col5.val, p.col6.val,
    p.col7.val, p.col8.val, p.col9.val]

/-- `POS0[f]`, row 0 as start positions (byte, hi): nibble index n is byte n/2, high where n is even (R71). -/
def Pos0.start (p : Pos0) (f : Fin 10) : StartPos :=
  { byte := (Pos0.indices p)[f] / 2, hi := decide ((Pos0.indices p)[f] % 2 = 0) }

/-- The position-table ROM: `POS(c, f) = (POS0[f].byte + 24*c, POS0[f].hi)` (R51, R160). -/
def positionRom (p : Pos0) : Vector (Vector StartPos 10) 9 :=
  Vector.ofFn fun c => Vector.ofFn fun f =>
    { byte := (Pos0.start p f).byte + Config.stride * c.val, hi := (Pos0.start p f).hi }

/-- `NPOS(c, f) = N(POS(c, f))` (R160). -/
def npos (p : Pos0) (c : Fin 9) (f : Fin 10) : Nat :=
  nibbleIndex (positionRom p)[c][f].byte (positionRom p)[c][f].hi

/-! ### The field-decode units -/

/-- The decoder of a column; a timestamp names the column it is paired with (R161). -/
inductive ColumnUnit where
  | temp
  | hum
  | tempTime (paired : Fin 10)
  | humTime (paired : Fin 10)
deriving DecidableEq, Repr

/-- The ten columns in the table's order: max-temp, min-temp, cur-temp, their two times, max-humidity, min-humidity,
cur-humidity, their two times (R161). -/
def columnUnits : Vector ColumnUnit 10 :=
  #v[.temp, .temp, .temp, .tempTime 0, .tempTime 1, .hum, .hum, .hum, .humTime 5, .humTime 6]

/-- A temperature unit (R130, R161). -/
def tempUnit (s : State) (n : Nat) : Fetch Word := (win s n 3).map decTemp

/-- A humidity unit (R132, R161). -/
def humUnit (s : State) (n : Nat) : Fetch Word := (win s n 2).map decHum

/-- `tsmux(v, n)` (R167): the window is read only where the paired word is VALID. The paired word's own reads are counted by
its own column; where they fault, the command faults with them. -/
def tsmux (p : Params) (s : State) (paired : Fetch Word) (n : Nat) : Fetch Word :=
  match paired with
  | .got v _ => if tagField v = 0 then (win s n 8).map (decTS8 p.ts8ErrPattern) else .got absentTs []
  | .failed f fs => .failed f fs

/-- Unit (c, f): the value of column `f` of channel `c` (R163, R166). -/
def column (p : Params) (s : State) (c : Fin 9) (f : Fin 10) : Fetch Word :=
  match columnUnits[f] with
  | .temp => tempUnit s (npos p.pos0 c f)
  | .hum => humUnit s (npos p.pos0 c f)
  | .tempTime g => tsmux p s (tempUnit s (npos p.pos0 c g)) (npos p.pos0 c f)
  | .humTime g => tsmux p s (humUnit s (npos p.pos0 c g)) (npos p.pos0 c f)

/-! ### PARSE -/

/-- What a PARSE decodes and then commits (R163). -/
structure Frame where
  sigq  : BitVec 7
  out   : FrameOut
  alarm : Vector Byte 12
deriving DecidableEq, Repr

/-- The signal quality: bits 6:0 of byte 4 (R165). -/
def readSigq (s : State) : Fetch (BitVec 7) :=
  (memRead s Config.sigqByte).map (fun b => b.extractLsb' 0 7)

/-- The nine lanes of ten columns (R166). -/
def readLanes (p : Params) (s : State) : Fetch FrameOut :=
  Fetch.collect 9 (fun c => Fetch.collect 10 (fun f => column p s c f))

/-- The alarm block, bytes 223..234, verbatim (R168). -/
def readAlarm (s : State) : Fetch (Vector Byte 12) :=
  Fetch.collect 12 (fun k => memRead s (Config.alarmBase + k.val))

/-- The read phase of a full PARSE (R163): every FB read happens here. -/
def readFrame (p : Params) (s : State) : Fetch Frame :=
  Fetch.both (fun (x : BitVec 7 × FrameOut) a => { sigq := x.1, out := x.2, alarm := a })
    (Fetch.both Prod.mk (readSigq s) (readLanes p s)) (readAlarm s)

/-- The commit phase of a PARSE: the frame registers, CAPT <- CAPT_IN, SHORT and PARSED (R163, R164, R169). -/
def commitFrame (short : Bool) (s : State) (fr : Frame) : State :=
  ({ s with out := fr.out, sigq := fr.sigq, alarm := fr.alarm, capt := s.captIn }).markParsed short

/-- A short frame's value of a column: NOT_PRESENT, or ABSENT for a timestamp (R164). -/
def shortColumn (f : Fin 10) : Word :=
  match columnUnits[f] with
  | .temp => tempWord .notPresent 0
  | .hum => humWord .notPresent Config.humNotPresent
  | .tempTime _ => absentTs
  | .humTime _ => absentTs

/-- The short frame: every field at its default (R164). -/
def shortFrame : Frame :=
  { sigq := 0, out := Vector.ofFn fun _ => Vector.ofFn shortColumn, alarm := Vector.replicate 12 0 }

/-- PARSE with given parameters (R163, R164): a short frame reads no byte. -/
def parseCommand (p : Params) (s : State) : Host.Outcome State Fault Refusal :=
  if s.len.toNat < Config.minFrameLen then finishCommand s (.got shortFrame []) (commitFrame true)
  else finishCommand s (readFrame p s) (commitFrame false)

/-- PARSE of this machine (R163). -/
def execParse (s : State) : Host.Outcome State Fault Refusal := parseCommand Config.params s

/-! ### Battery status -/

/-- `battOk(c)` from the alarm bytes: bit BASE_BATT_BIT of byte 1 for the base, bit c-1 of byte 0 for sensor c (R172). -/
def battOk (baseBit : Fin 8) (alarm : Vector Byte 12) (c : Nat) : Bool :=
  if c = 0 then !(alarm[1].getLsbD baseBit.val) else !(alarm[0].getLsbD (c - 1))

/-- BATT with given parameters: 1 where the channel's battery is OK; no FB byte is read (R174). -/
def battCommand (p : Params) (ch : BitVec 4) (s : State) : Host.Outcome State Fault Refusal :=
  finishResult s (.got (boolWord (battOk p.baseBattBit s.alarm ch.toNat)) [])

/-- BATT of this machine (R174). -/
def execBatt (ch : BitVec 4) (s : State) : Host.Outcome State Fault Refusal :=
  battCommand Config.params ch s

end Sys2Proof.Machine
end

