-- ==== Sys2Proof/Machine/Dispatch.lean ====
section
/-! DEFINITION. One arm for each command of the opcode map (30_encoding.md R97): `perform` and `commit` of R105. -/

namespace Sys2Proof.Machine

def exec (i : Instr) (s : State) : Host.Outcome State Fault Refusal :=
  match i with
  | .nib byte hi => Sys2Proof.Machine.execNib byte hi s
  | .bcd2 byte hi => Sys2Proof.Machine.execBcd2 byte hi s
  | .ovf2 byte hi => Sys2Proof.Machine.execOvf2 byte hi s
  | .err2 byte hi => Sys2Proof.Machine.execErr2 byte hi s
  | .ovf3 byte hi => Sys2Proof.Machine.execOvf3 byte hi s
  | .err3 byte hi => Sys2Proof.Machine.execErr3 byte hi s
  | .temp byte hi => Sys2Proof.Machine.execTemp byte hi s
  | .hum byte hi => Sys2Proof.Machine.execHum byte hi s
  | .ts8 byte hi => Sys2Proof.Machine.execTs8 byte hi s
  | .ts10 byte hi => Sys2Proof.Machine.execTs10 byte hi s
  | .parse => Sys2Proof.Machine.execParse s
  | .batt ch => Sys2Proof.Machine.execBatt ch s

end Sys2Proof.Machine
end

