-- ==== Sys2Proof/Machine/HostAccess.lean ====
section
/-! DEFINITION. The host's accesses: the register space (10_state.md R28 to R50), the command step (30_encoding.md R105), the
frame-buffer port (20_memory.md R76, R77), the reset event (70_reset_and_hazards.md R210) and the pseudo-operations
(30_encoding.md R104). -/

namespace Sys2Proof.Machine

/-! ### The register map -/

/-- The named registers (R29). -/
inductive RegName where
  | CMD | STATUS | LEN | CAPT_IN | RESULT | SIGQ | CAPT | BATT | ALARM0 | ALARM1 | ALARM2
  | Out (c : Fin 9) (f : Fin 10)
deriving DecidableEq, Repr

/-- A register's word address (R29). -/
def RegName.address : RegName → BitVec 8
  | .CMD => 0x00
  | .STATUS => 0x01
  | .LEN => 0x02
  | .CAPT_IN => 0x03
  | .RESULT => 0x04
  | .SIGQ => 0x05
  | .CAPT => 0x06
  | .BATT => 0x07
  | .ALARM0 => 0x08
  | .ALARM1 => 0x09
  | .ALARM2 => 0x0A
  | .Out c f => BitVec.ofNat 8 (0x10 + 16 * c.val + f.val)

/-! ### Register reads -/

/-- ALARMj, little-endian: ALARM[4j + m] at bits [8m+7 : 8m] (R49). -/
def alarmWord (alarm : Vector Byte 12) (j : Fin 3) : Word :=
  alarm[4 * j.val + 3] ++ alarm[4 * j.val + 2] ++ alarm[4 * j.val + 1] ++ alarm[4 * j.val]

/-- The BATT register, derived at each read: bit c is `battOk(c)`, bits 31:9 are 0 (R50). -/
def battWord (baseBit : Fin 8) (alarm : Vector Byte 12) : Word :=
  let ok (c : Nat) := BitVec.ofBool (battOk baseBit alarm c)
  0#23 ++ ok 8 ++ ok 7 ++ ok 6 ++ ok 5 ++ ok 4 ++ ok 3 ++ ok 2 ++ ok 1 ++ ok 0

/-- A host read of the register at address `a` (R29); a reserved address reads 0 (R30). -/
def readRegister (s : State) (a : BitVec 8) : Word :=
  match a.toNat with
  | 0x00 => s.cmd
  | 0x01 => s.status.toWord
  | 0x02 => s.len.setWidth 32
  | 0x03 => s.captIn
  | 0x04 => s.result
  | 0x05 => s.sigq.setWidth 32
  | 0x06 => s.capt
  | 0x07 => battWord Config.params.baseBattBit s.alarm
  | 0x08 => alarmWord s.alarm 0
  | 0x09 => alarmWord s.alarm 1
  | 0x0A => alarmWord s.alarm 2
  | n =>
    if h : 0x10 ≤ n ∧ n < 0xA0 ∧ n % 16 < 10 then (s.out[(n - 0x10) / 16]'(by omega))[n % 16]'h.2.2
    else 0

/-! ### The command step and register writes -/

/-- A host write of `v` to CMD (R32, R105): CMD takes the word, then the word runs, or is illegal. -/
def commandStep (v : Word) (s : State) : Host.Outcome State Fault Refusal :=
  match decode v with
  | .ok i => exec i { s with cmd := v }
  | .error _ => .next ({ s with cmd := v }).completeIllegal

/-- LEN takes min(v, 256) (R39). -/
def clampLen (v : Word) : BitVec 9 := BitVec.ofNat 9 (min v.toNat Config.bufCap)

/-- A host write of `v` to the register at address `a` (R29): CMD, LEN and CAPT_IN take it; read-only and reserved addresses
do not (R30, R31). -/
def writeRegister (a : BitVec 8) (v : Word) (s : State) : Host.Outcome State Fault Refusal :=
  match a.toNat with
  | 0x00 => commandStep v s
  | 0x02 => .next { s with len := clampLen v }
  | 0x03 => .next { s with captIn := v }
  | _ => .next s

/-! ### The frame-buffer port -/

/-- `FWR i, v` (R76). -/
def hostFbWrite (i : BitVec 8) (v : Byte) (s : State) : Host.Outcome State Fault Refusal :=
  .next { s with fb := Memory.write s.fb i.toNat v }

/-- `FRD i` (R77): an unwritten byte model-faults; any other is the answer, and nothing of the block changes. -/
def hostFbRead (i : BitVec 8) (s : State) : Host.Outcome State Fault Refusal :=
  match Memory.read s.fb i.toNat with
  | some v => .next { s with answers := s.answers ++ [.fbByte i v] }
  | none => .fault (.fbUnwritten i.toNat)

/-! ### Reset and the whole set -/

/-- The reset event (R210): the block is as after reset; what the host has still to issue and what it has been told is the
host's and stays. -/
def resetEvent (s : State) : State :=
  { State.reset with pending := s.pending, answers := s.answers, accessCount := s.accessCount }

/-- One host access (R103). -/
def hostAccess (op : HostOp) (s : State) : Host.Outcome State Fault Refusal :=
  match op with
  | .fwr i v => hostFbWrite i v s
  | .frd i => hostFbRead i s
  | .hwr a v => writeRegister a v s
  | .hrd a => .next { s with answers := s.answers ++ [.regWord a (readRegister s a)] }
  | .reset => .next (resetEvent s)

/-- The first pending access is taken up: the rest stay pending, and the count of accesses goes up. -/
def State.issue (s : State) (rest : List HostOp) : State :=
  { s with pending := rest, accessCount := s.accessCount + 1 }

/-! ### Pseudo-operations (R104) -/

/-- `FWRS i, v0, ..., vk`: one byte write for each value; `none` where a byte would lie outside 0..255 (R70). -/
def fwrs (i : Nat) : List Byte → Option (List HostOp)
  | [] => some []
  | v :: vs =>
    if i < Config.bufCap then (fwrs (i + 1) vs).map (fun ops => .fwr (BitVec.ofNat 8 i) v :: ops) else none

/-- `FFILL lo, hi, v`: the byte write of `v` for every address from `lo` to `hi`, in increasing order. -/
def ffill (lo hi : Nat) (v : Byte) : Option (List HostOp) := fwrs lo (List.replicate (hi + 1 - lo) v)

/-- `CMD <command>`: the host writes the command's word to CMD. -/
def cmdOp (i : Instr) : HostOp := .hwr 0x00 (encode i)

end Sys2Proof.Machine
end

