-- ==== Sys2Proof/Machine/Step.lean ====
section
/-! DEFINITION. One step: the first of the pending host accesses is performed, a command whole (20_memory.md R81, R83). With none
pending the block is idle and holds its state (60_exceptions.md R206, 70_reset_and_hazards.md R213). -/

namespace Sys2Proof.Machine

/-- One step of the total order of R83. -/
def step (s : State) : Host.Outcome State Fault Refusal :=
  match s.pending with
  | [] => .next s
  | op :: rest => hostAccess op (s.issue rest)

/-- The state in which the next access is the host's write of this word to CMD. The block fetches nothing (R27): a command
comes to it by that write, and the model's list of pending accesses stands for it (assumption log 1). -/
def State.withFetchWord (s : State) (nbits w : Nat) : State :=
  { s with pending := .hwr 0x00 (BitVec.ofNat 32 (w % 2 ^ nbits)) :: s.pending }

end Sys2Proof.Machine
end

