-- ==== Sys2Proof/Machine/Assembler.lean ====
section
/-! DEFINITION. The assembler forms of 30_encoding.md R102, on tokens: a form is a mnemonic and its operands. -/

namespace Sys2Proof.Machine

/-- An operand token: a decimal number, a hexadecimal number (written with the `0x` prefix), or an alignment word (R102). -/
inductive AsmOperand where
  | dec (digits : List (Fin 10))
  | hex (digits : List (Fin 16))
  | hi
  | lo
deriving DecidableEq, Repr

/-- The number a token denotes, most significant digit first; a number has at least one digit. -/
def AsmOperand.number : AsmOperand → Option Nat
  | .dec [] => none
  | .dec ds => some (ds.foldl (fun n d => 10 * n + d.val) 0)
  | .hex [] => none
  | .hex ds => some (ds.foldl (fun n d => 16 * n + d.val) 0)
  | .hi => none
  | .lo => none

/-- The alignment a token denotes: `hi` is HI = 1, `lo` is HI = 0. -/
def AsmOperand.alignment : AsmOperand → Option Bool
  | .hi => some true
  | .lo => some false
  | .dec _ => none
  | .hex _ => none

/-- The command of a window mnemonic, with its start position. -/
def windowCommand (byte : Byte) (hi : Bool) : Mnemonic → Option Instr
  | .NIB => some (.nib byte hi)
  | .BCD2 => some (.bcd2 byte hi)
  | .OVF2 => some (.ovf2 byte hi)
  | .ERR2 => some (.err2 byte hi)
  | .OVF3 => some (.ovf3 byte hi)
  | .ERR3 => some (.err3 byte hi)
  | .TEMP => some (.temp byte hi)
  | .HUM => some (.hum byte hi)
  | .TS8 => some (.ts8 byte hi)
  | .TS10 => some (.ts10 byte hi)
  | .PARSE => none
  | .BATT => none

/-- The command a form stands for: `MNEMONIC byte, hi|lo`, `PARSE` or `BATT ch`; any other form is rejected (R102). -/
def assemble (m : Mnemonic) : List AsmOperand → Option Instr
  | [] => if m = .PARSE then some .parse else none
  | [a] =>
    match a.number with
    | some ch => if m = .BATT ∧ ch ≤ 8 then some (.batt (BitVec.ofNat 4 ch)) else none
    | none => none
  | [a, b] =>
    match a.number, b.alignment with
    | some byte, some hi => if byte ≤ 255 then windowCommand (BitVec.ofNat 8 byte) hi m else none
    | _, _ => none
  | _ => none

end Sys2Proof.Machine
end

