-- ==== Sys2Proof/Safety.lean ====
section
/-! DEFINITION. The terms claims are stated in: what a window of the frame buffer holds, which reads fault, the words a result may
be, the invariant every step keeps, and a run without a model fault. -/

namespace Sys2Proof.Machine

/-! ### What the frame buffer holds -/

/-- The nibble at index `n`, where its byte was written. -/
def nibbleAt (m : Memory) (n : Nat) : Option Nibble := (Memory.read m (n / 2)).map (fun b => nibbleOf b n)

/-- The `k` nibbles from index `n` lie in the frame buffer, were written, and are `w`. -/
def holdsWindow {k : Nat} (s : State) (n : Nat) (w : Vector Nibble k) : Prop :=
  n + k ≤ 512 ∧ ∀ j : Fin k, nibbleAt s.fb (n + j.val) = some w[j]

/-- The highest byte a window of `k` nibbles at `n` reads (R73). -/
def windowTop (n k : Nat) : Nat := (n + k - 1) / 2

/-- Byte `i` is one of the bytes a window of `k` nibbles at `n` reads (R73). -/
def inWindow (n k i : Nat) : Prop := n / 2 ≤ i ∧ i ≤ windowTop n k

/-- The model fault a read of byte `i` raises, if any (R74, R195). -/
def readFault (s : State) (i : Nat) : Option Fault :=
  if Config.bufCap ≤ i then some (.fbBeyondCapacity i)
  else if Memory.read s.fb i = none then some (.fbUnwritten i) else none

/-- Every byte that `reads` names was written, and byte `i` of them is `image i`; the rest of the frame buffer is anything. -/
def holdsImageOn (s : State) (image : Nat → Byte) (reads : Nat → Prop) : Prop :=
  ∀ i, reads i → Memory.read s.fb i = some (image i)

/-- The `k` nibbles from index `n` of a whole image. -/
def imageWindow (image : Nat → Byte) (n k : Nat) : Vector Nibble k :=
  Vector.ofFn fun j => nibbleOf (image ((n + j.val) / 2)) (n + j.val)

/-! ### The state a command leaves -/

/-- The state a single-field command leaves: RESULT, the latch, and STATUS by the common update; nothing else changes (R41,
R105). -/
def afterResult (s : State) (result : Word) (oor : Bool) : State :=
  { s with
    result := result
    latchOor := oor
    status := { s.status with ill := false, oor := oor, done := true } }

/-- The state a PARSE leaves: the frame registers, CAPT, the latch and the whole of STATUS; nothing else changes (R163, R164,
R41). -/
def afterParse (s : State) (short : Bool) (fr : Frame) (oor : Bool) : State :=
  { s with
    sigq := fr.sigq
    out := fr.out
    alarm := fr.alarm
    capt := s.captIn
    latchOor := oor
    status := { done := true, short := short, oor := oor, ill := false, parsed := true } }

/-- How many nibbles the window of column `f` has (R161). -/
def columnWidth (f : Fin 10) : Nat :=
  match columnUnits[f] with
  | .temp => 3
  | .hum => 2
  | .tempTime _ => 8
  | .humTime _ => 8

/-! ### The words that occur -/

/-- The temperature words that occur (R46): the two sentinels, or a valid reading of -400..599 with TAG and bits 31:18 zero. -/
def tempWordOk (v : Word) : Prop :=
  v = 0x00010000 ∨ v = 0x00020000
    ∨ (v.extractLsb' 16 16 = 0 ∧ -400 ≤ (v.extractLsb' 0 16).toInt ∧ (v.extractLsb' 0 16).toInt ≤ 599)

/-- The humidity words that occur (R48): the two sentinels, or a valid reading of 0..99. -/
def humWordOk (v : Word) : Prop := v = 0x0001006E ∨ v = 0x00020079 ∨ v.toNat ≤ 99

/-- The timestamp words that occur (R47): ABSENT, or PRESENT = 1 with every field in its range. -/
def tsWordOk (v : Word) : Prop :=
  v = absentTs
    ∨ (v.getLsbD 31 = true ∧ v.extractLsb' 28 3 = 0 ∧ (v.extractLsb' 20 8).toNat ≤ 165
        ∧ 1 ≤ (v.extractLsb' 16 4).toNat ∧ (v.extractLsb' 16 4).toNat ≤ 12
        ∧ 1 ≤ (v.extractLsb' 11 5).toNat ∧ (v.extractLsb' 6 5).toNat ≤ 23 ∧ (v.extractLsb' 0 6).toNat ≤ 59)

/-- A timestamp is present only where its paired word is VALID (R171(a), (b)). -/
def pairOk (paired time : Word) : Prop := time ≠ absentTs → tagField paired = 0

/-- One channel's ten words: the formats of R45, and the four pairs of R171. -/
def laneOk (l : Vector Word 10) : Prop :=
  (tempWordOk l[0] ∧ tempWordOk l[1] ∧ tempWordOk l[2])
    ∧ (humWordOk l[5] ∧ humWordOk l[6] ∧ humWordOk l[7])
    ∧ (tsWordOk l[3] ∧ tsWordOk l[4] ∧ tsWordOk l[8] ∧ tsWordOk l[9])
    ∧ (pairOk l[0] l[3] ∧ pairOk l[1] l[4] ∧ pairOk l[5] l[8] ∧ pairOk l[6] l[9])

/-! ### The invariant -/

/-- What holds of the block after reset and after every step. -/
structure Inv (s : State) : Prop where
  /-- The frame buffer is in its canonical form. -/
  memory : Memory.wf s.fb = true
  /-- LEN holds 0..256 (R39). -/
  lenLegal : s.len.toNat ≤ 256
  /-- Between commands STATUS.OOR is the latch (R36, R75). -/
  oorIsLatch : s.status.oor = s.latchOor
  /-- OOR, ILL and PARSED are set only by a command, which also sets DONE (R34, R36, R37, R38). -/
  doneFirst : s.status.oor = true ∨ s.status.ill = true ∨ s.status.parsed = true → s.status.done = true
  /-- OOR and ILL are never both set: an illegal command reads nothing (R36, R196(1)). -/
  notBoth : ¬ (s.status.oor = true ∧ s.status.ill = true)
  /-- SHORT is set only by a PARSE, which also sets PARSED (R35, R38). -/
  shortParsed : s.status.short = true → s.status.parsed = true
  /-- While PARSED = 0, the frame registers hold their reset values (R38). -/
  unparsed : s.status.parsed = false →
    s.out = State.reset.out ∧ s.sigq = 0 ∧ s.capt = 0 ∧ s.alarm = State.reset.alarm
  /-- While SHORT = 1, the frame registers hold the short frame (R164). -/
  short : s.status.short = true → s.out = shortFrame.out ∧ s.sigq = 0 ∧ s.alarm = shortFrame.alarm
  /-- The frame registers hold words of their formats, with gated timestamps (R45 to R48, R171). -/
  lanes : ∀ c : Fin 9, laneOk s.out[c]

/-! ### Runs -/

/-- `k` steps from `s` raise no model fault: the premise R194 asks of a claim about a program. -/
def noModelFault (k : Nat) (s : State) : Prop := ∀ f, Host.Core.run core k s ≠ .fault f

end Sys2Proof.Machine
end

