-- ==== Sys2Proof/Certificates/Slice0/Obligations.lean ====
section
/-! DEFINITION. What is claimed of the block, from the spec's numbered rules. The first part gives the values the rules name, written
from the rules and not by the model's own decoders; the obligations follow. -/

namespace Sys2Proof.Rules

open Sys2Proof Sys2Proof.Machine

/-- "1 if the predicate holds, else 0" (R124 to R127, R174). -/
def bit (b : Bool) : Word := if b then 1 else 0

/-- R120: some nibble of the window equals 15. -/
def hasOverflow {k : Nat} (w : Vector Nibble k) : Bool := decide (∃ j : Fin k, w[j].toNat = 15)

/-- R121: some nibble of the window is in 10..14. -/
def hasError {k : Nat} (w : Vector Nibble k) : Bool :=
  decide (∃ j : Fin k, 10 ≤ w[j].toNat ∧ w[j].toNat ≤ 14)

/-- R130's word for digits d0, d1, d2. -/
def temperature (w : Vector Nibble 3) : Word :=
  if hasOverflow w then 0x00020000
  else if hasError w then 0x00010000
  else (BitVec.ofInt 16 (100 * (w[0].toNat : Int) + 10 * w[1].toNat + w[2].toNat - 400)).setWidth 32

/-- R132's word for digits d0, d1. -/
def humidity (w : Vector Nibble 2) : Word :=
  if hasOverflow w then 0x00020079
  else if hasError w then 0x0001006E
  else BitVec.ofNat 32 (10 * w[0].toNat + w[1].toNat)

/-- R140: the packed word of a date and time that passes the calendar check, else the all-zero word. -/
def stamp (year month day hour minute : Nat) : Word :=
  if 1 ≤ month ∧ month ≤ 12 ∧ 1 ≤ day ∧ day ≤ 31 ∧ 0 ≤ hour ∧ hour ≤ 23 ∧ 0 ≤ minute ∧ minute ≤ 59 then
    (1#32 <<< 31) ||| (BitVec.ofNat 32 (year - 2000) <<< 20) ||| (BitVec.ofNat 32 month <<< 16)
      ||| (BitVec.ofNat 32 day <<< 11) ||| (BitVec.ofNat 32 hour <<< 6) ||| BitVec.ofNat 32 minute
  else 0x00000000

/-- R142: hour and minute from tim1, tim2, tim3. -/
def reconstruct (tim1 tim2 tim3 : Nat) : Nat × Nat :=
  let hour := if 10 ≤ tim1 then tim1 + 10 else tim1
  if 10 ≤ tim2 then (hour + 10, (tim2 - 10) * 10 + tim3) else (hour, tim2 * 10 + tim3)

/-- R143's word, with the open parameter TS8_ERR_PATTERN as this machine has it. -/
def timestamp8 (w : Vector Nibble 8) : Word :=
  if w = Config.ts8ErrPattern then 0x00000000
  else
    let time := reconstruct w[5].toNat w[6].toNat w[7].toNat
    stamp (2000 + 10 * w[0].toNat + w[1].toNat) w[2].toNat (10 * w[3].toNat + w[4].toNat) time.1 time.2

/-- R146's word: a nibble in 10..14 anywhere in the five fields, then the calendar check. -/
def timestamp10 (w : Vector Nibble 10) : Word :=
  if hasError w then 0x00000000
  else
    stamp (2000 + 10 * w[0].toNat + w[1].toNat) (10 * w[2].toNat + w[3].toNat)
      (10 * w[4].toNat + w[5].toNat) (10 * w[6].toNat + w[7].toNat) (10 * w[8].toNat + w[9].toNat)

/-- A window command's rule: the words that are the command (`mask 0xFFFF00EF`, its `match`); its effect where the window's
bytes BYTE..`top` were written, with OOR = 1 exactly when `top` is at or above LEN; and, where one of those bytes cannot be
read, the fault, which is that of one of those bytes. -/
def windowRule (mk : Byte → Bool → Instr) (matchBits : Word) (k : Nat) (top : Nat → Bool → Nat)
    (value : Vector Nibble k → Word) : Prop :=
  (∀ v : Word, v &&& 0xFFFF00EF = matchBits ↔ decode v = .ok (mk (v.extractLsb' 8 8) (v.getLsbD 4)))
  ∧ (∀ (byte : Byte) (hi : Bool) (s : State) (w : Vector Nibble k),
      holdsWindow s (2 * byte.toNat + (if hi then 0 else 1)) w →
      exec (mk byte hi) s
        = .next (afterResult s (value w) (decide (s.len.toNat ≤ top byte.toNat hi))))
  ∧ (∀ (byte : Byte) (hi : Bool) (s : State),
      (∃ i, byte.toNat ≤ i ∧ i ≤ top byte.toNat hi ∧ (readFault s i).isSome = true) →
      ∃ i f, byte.toNat ≤ i ∧ i ≤ top byte.toNat hi ∧ readFault s i = some f
        ∧ exec (mk byte hi) s = .fault f)

/-- The nibble index at which column `f` of channel `c` starts: N(POS0[f].byte + 24*c, POS0[f].hi) (R160). -/
def columnStart (c : Fin 9) (f : Fin 10) : Nat :=
  2 * ((Pos0.start Config.pos0 f).byte + 24 * c.val) + (if (Pos0.start Config.pos0 f).hi then 0 else 1)

/-- A temperature column of an image. -/
def temperatureAt (image : Nat → Byte) (c : Fin 9) (f : Fin 10) : Word :=
  temperature (imageWindow image (columnStart c f) 3)

/-- A humidity column of an image. -/
def humidityAt (image : Nat → Byte) (c : Fin 9) (f : Fin 10) : Word :=
  humidity (imageWindow image (columnStart c f) 2)

/-- A timestamp column of an image, gated by its paired word (R167). -/
def timeAt (image : Nat → Byte) (paired : Word) (c : Fin 9) (f : Fin 10) : Word :=
  if paired.extractLsb' 16 2 = 0 then timestamp8 (imageWindow image (columnStart c f) 8) else 0x00000000

/-- The frame a full PARSE decodes from an image (R163, R165, R168). -/
def frameOf (image : Nat → Byte) : Frame where
  sigq := (image 4).extractLsb' 0 7
  out := Vector.ofFn fun c =>
    #v[temperatureAt image c 0, temperatureAt image c 1, temperatureAt image c 2,
      timeAt image (temperatureAt image c 0) c 3, timeAt image (temperatureAt image c 1) c 4,
      humidityAt image c 5, humidityAt image c 6, humidityAt image c 7,
      timeAt image (humidityAt image c 5) c 8, timeAt image (humidityAt image c 6) c 9]
  alarm := Vector.ofFn fun k => image (223 + k.val)

/-- The short frame (R164). -/
def defaultFrame : Frame where
  sigq := 0
  out := Vector.ofFn fun _ =>
    #v[0x00010000, 0x00010000, 0x00010000, 0, 0, 0x0001006E, 0x0001006E, 0x0001006E, 0, 0]
  alarm := Vector.replicate 12 0

/-- Byte `i` is in the read set of a full PARSE, where `valid c g` says that the paired word of column `g` is VALID (R170). -/
def inReadSet (valid : Fin 9 → Fin 10 → Prop) (i : Nat) : Prop :=
  i = 4 ∨ (223 ≤ i ∧ i ≤ 234)
  ∨ (∃ c : Fin 9, ∃ f : Fin 10, (f = 0 ∨ f = 1 ∨ f = 2) ∧ inWindow (columnStart c f) 3 i)
  ∨ (∃ c : Fin 9, ∃ f : Fin 10, (f = 5 ∨ f = 6 ∨ f = 7) ∧ inWindow (columnStart c f) 2 i)
  ∨ (∃ c : Fin 9, ∃ f g : Fin 10,
      ((f = 3 ∧ g = 0) ∨ (f = 4 ∧ g = 1) ∨ (f = 8 ∧ g = 5) ∨ (f = 9 ∧ g = 6))
        ∧ valid c g ∧ inWindow (columnStart c f) 8 i)

/-- In an image, the paired word of column `g` is VALID. -/
def imageValid (image : Nat → Byte) (c : Fin 9) (g : Fin 10) : Prop :=
  ((frameOf image).out[c][g]).extractLsb' 16 2 = 0

/-- In a state, the window of column `g`, one that a timestamp is paired with, was written and its word is VALID (R161,
R167). -/
def pairedValid (s : State) (c : Fin 9) (g : Fin 10) : Prop :=
  ((g = 0 ∨ g = 1) ∧ ∃ w : Vector Nibble 3,
    holdsWindow s (columnStart c g) w ∧ (temperature w).extractLsb' 16 2 = 0)
  ∨ ((g = 5 ∨ g = 6) ∧ ∃ w : Vector Nibble 2,
    holdsWindow s (columnStart c g) w ∧ (humidity w).extractLsb' 16 2 = 0)

/-- The FB bytes a command reads from a state: its window (R73, R96), the read set of R170 for a PARSE that is not short, none
for BATT (R174). -/
def readsByte (s : State) (i : Nat) : Instr → Prop
  | .nib byte hi => inWindow (2 * byte.toNat + (if hi then 0 else 1)) 1 i
  | .bcd2 byte hi => inWindow (2 * byte.toNat + (if hi then 0 else 1)) 2 i
  | .ovf2 byte hi => inWindow (2 * byte.toNat + (if hi then 0 else 1)) 2 i
  | .err2 byte hi => inWindow (2 * byte.toNat + (if hi then 0 else 1)) 2 i
  | .ovf3 byte hi => inWindow (2 * byte.toNat + (if hi then 0 else 1)) 3 i
  | .err3 byte hi => inWindow (2 * byte.toNat + (if hi then 0 else 1)) 3 i
  | .temp byte hi => inWindow (2 * byte.toNat + (if hi then 0 else 1)) 3 i
  | .hum byte hi => inWindow (2 * byte.toNat + (if hi then 0 else 1)) 2 i
  | .ts8 byte hi => inWindow (2 * byte.toNat + (if hi then 0 else 1)) 8 i
  | .ts10 byte hi => inWindow (2 * byte.toNat + (if hi then 0 else 1)) 10 i
  | .parse => 230 ≤ s.len.toNat ∧ inReadSet (pairedValid s) i
  | .batt _ => False

/-- Two states agree on the registers the command's rule names: LEN and CAPT_IN for PARSE (R163), alarm bytes 0 and 1 for BATT
(R172, R174), LEN for the window commands, whose rules name it for OOR. -/
def sameRegisters (s s' : State) : Instr → Prop
  | .parse => s'.len = s.len ∧ s'.captIn = s.captIn
  | .batt _ => s'.alarm[0] = s.alarm[0] ∧ s'.alarm[1] = s.alarm[1]
  | .nib _ _ | .bcd2 _ _ | .ovf2 _ _ | .err2 _ _ | .ovf3 _ _ | .err3 _ _ | .temp _ _ | .hum _ _ | .ts8 _ _
  | .ts10 _ _ => s'.len = s.len

/-- The host access writes a word that is PARSE to CMD. -/
def isParse (op : HostOp) : Prop := ∃ v, op = .hwr 0x00 v ∧ decode v = .ok .parse

/-- The host access writes a word to CMD that is a command other than PARSE. -/
def isSingleField (op : HostOp) : Prop := ∃ v i, op = .hwr 0x00 v ∧ decode v = .ok i ∧ i ≠ .parse

/-- `illegal(v)` of R99, its fields taken from the word's number. -/
def illegalWord (v : Word) : Prop :=
  let n := v.toNat
  n % 16 = 0x0 ∨ n % 16 ≥ 0xD
  ∨ n / 2 ^ 5 % 8 ≠ 0
  ∨ n / 2 ^ 20 ≠ 0
  ∨ (1 ≤ n % 16 ∧ n % 16 ≤ 0xA ∧ n / 2 ^ 16 % 16 ≠ 0)
  ∨ (n % 16 = 0xB ∧ n / 2 ^ 4 % 2 ^ 16 ≠ 0)
  ∨ (n % 16 = 0xC ∧ (n / 2 ^ 4 % 2 ^ 12 ≠ 0 ∨ n / 2 ^ 16 % 16 > 8))

end Sys2Proof.Rules

open Sys2Proof Sys2Proof.Machine Sys2Proof.Rules

/-! ### Command words -/

/-- Decoding the encoded word of a well-formed command gives the command back, at every operand value. -/
def Obligations.DecodeOfEncodeIsTheCommand : Prop :=
  ∀ i : Instr, i.wellFormed = true → decode (encode i) = .ok i

/-- R100: every legal word is exactly one command, and its word is the one the encoder gives; every other word is illegal. -/
def Obligations.LegalWordIsExactlyOneCommand : Prop :=
  ∀ v : Word,
    (¬ illegalWord v → ∃ i : Instr, i.wellFormed = true ∧ encode i = v ∧ decode v = .ok i
        ∧ ∀ j : Instr, j.wellFormed = true → encode j = v → j = i)
    ∧ (illegalWord v → ∀ j : Instr, j.wellFormed = true → encode j ≠ v)

/-- R99: the decoder rejects exactly the illegal words, and a host write of one to CMD changes only CMD, the latch and
STATUS, never faulting. -/
def Obligations.IllegalWordOnlySetsStatus : Prop :=
  (∀ v : Word, illegalWord v ↔ ∃ e, decode v = .error e)
  ∧ ∀ (v : Word) (s : State) (rest : List HostOp), s.pending = .hwr 0x00 v :: rest → illegalWord v →
      step s = .next { s with
        pending := rest
        accessCount := s.accessCount + 1
        cmd := v
        latchOor := false
        status := { s.status with ill := true, oor := false, done := true } }

/-- Words written out from R90, R97 and R102, one for each command. -/
def Obligations.WrittenOutWordsDecode : Prop :=
  decode 0b00000000000000000000101000010001 = .ok (.nib 10 true)
  ∧ decode 0b00000000000000000000101000000010 = .ok (.bcd2 10 false)
  ∧ decode 0b00000000000000000000110000010011 = .ok (.ovf2 12 true)
  ∧ decode 0b00000000000000000000101100010100 = .ok (.err2 11 true)
  ∧ decode 0b00000000000000000001010000000101 = .ok (.ovf3 20 false)
  ∧ decode 0b00000000000000000001111000010110 = .ok (.err3 30 true)
  ∧ decode 0b00000000000000000001101000010111 = .ok (.temp 26 true)
  ∧ decode 0b00000000000000000011100100001000 = .ok (.hum 57 false)
  ∧ decode 0b00000000000000000010100000001001 = .ok (.ts8 40 false)
  ∧ decode 0b00000000000000000110111000011010 = .ok (.ts10 110 true)
  ∧ decode 0b00000000000000000000000000001011 = .ok .parse
  ∧ decode 0b00000000000010000000000000001100 = .ok (.batt 8)

/-- R102: the forms and their words; every other form is rejected. A window mnemonic's OP is the `op` beside it. -/
def Obligations.AssemblerFormsGiveTheirWords : Prop :=
  (∀ (a : AsmOperand) (n : Nat), a.number = some n → n ≤ 255 →
    ∀ (m : Mnemonic) (op : Nat),
      (m, op) ∈ [(Mnemonic.NIB, 0x1), (.BCD2, 0x2), (.OVF2, 0x3), (.ERR2, 0x4), (.OVF3, 0x5), (.ERR3, 0x6),
        (.TEMP, 0x7), (.HUM, 0x8), (.TS8, 0x9), (.TS10, 0xA)] →
      (assemble m [a, .hi]).map encode = some (BitVec.ofNat 32 (op + (1 <<< 4) + (n <<< 8)))
      ∧ (assemble m [a, .lo]).map encode = some (BitVec.ofNat 32 (op + (n <<< 8))))
  ∧ (assemble .PARSE []).map encode = some 0x0000000B
  ∧ (∀ (a : AsmOperand) (n : Nat), a.number = some n → n ≤ 8 →
      (assemble .BATT [a]).map encode = some (BitVec.ofNat 32 (0xC + (n <<< 16))))
  ∧ (∀ (m : Mnemonic) (ops : List AsmOperand) (i : Instr), assemble m ops = some i →
      (m = .PARSE ∧ ops = [])
      ∨ (m = .BATT ∧ ∃ a n, ops = [a] ∧ a.number = some n ∧ n ≤ 8)
      ∨ (m ≠ .PARSE ∧ m ≠ .BATT ∧ ∃ a b n, ops = [a, b] ∧ a.number = some n ∧ n ≤ 255 ∧ (b = .hi ∨ b = .lo)))

/-! ### The step -/

/-- A host write of a legal word to CMD stores the word in CMD and runs the command it decodes to; the step adds only that the
access is taken off the pending list and counted. -/
def Obligations.StepRunsTheDecodedCommand : Prop :=
  ∀ (s : State) (v : Word) (rest : List HostOp) (i : Instr),
    s.pending = .hwr 0x00 v :: rest → decode v = .ok i →
    step s = exec i { s with pending := rest, accessCount := s.accessCount + 1, cmd := v }

/-- R206, R213: with no host access to perform, the block holds its state. (That a step exists then is the model's choice,
assumption log 1.) -/
def Obligations.IdleBlockHoldsItsState : Prop :=
  ∀ s : State, s.pending = [] → step s = .next s

/-! ### Reads of the frame buffer -/

/-- R74: the read primitive, and the latch. -/
def Obligations.MemReadFollowsItsRule : Prop :=
  ∀ (s : State) (i : Nat),
    (256 ≤ i → memRead s i = .failed (.fbBeyondCapacity i) [])
    ∧ (i < 256 → Memory.read s.fb i = none → memRead s i = .failed (.fbUnwritten i) [])
    ∧ (∀ b, i < 256 → Memory.read s.fb i = some b → memRead s i = .got b [i])
    ∧ (s.latched [i] = true ↔ s.len.toNat ≤ i)

/-- R73 with R71 and R72: a window that can be read gives nib(n), ..., nib(n+k-1) in order, and reads every byte from
n >> 1 through (n+k-1) >> 1, each once. -/
def Obligations.WindowIsItsNibblesInOrder : Prop :=
  ∀ (s : State) (n k : Nat) (w : Vector Nibble k) (reads : List Nat), 0 < k → win s n k = .got w reads →
    (∀ j : Fin k, ∃ b, Memory.read s.fb ((n + j.val) / 2) = some b
        ∧ w[j] = if (n + j.val) % 2 = 0 then b.extractLsb' 4 4 else b.extractLsb' 0 4)
    ∧ reads.Nodup
    ∧ ∀ i, i ∈ reads ↔ n / 2 ≤ i ∧ i ≤ (n + k - 1) / 2

/-! ### The single-field commands -/

/-- R110: NIB. -/
def Obligations.NibReturnsTheRawNibble : Prop :=
  windowRule .nib 0x00000001 1 (fun byte _ => byte) (fun w => w[0].setWidth 32)

/-- R112: BCD2. -/
def Obligations.Bcd2ReturnsTensAndUnits : Prop :=
  windowRule .bcd2 0x00000002 2 (fun byte hi => if hi then byte else byte + 1)
    (fun w => BitVec.ofNat 32 (10 * w[0].toNat + w[1].toNat))

/-- R124, R125: OVF2 and ERR2, the raw predicates over two nibbles. -/
def Obligations.Ovf2AndErr2ReturnThePredicates : Prop :=
  windowRule .ovf2 0x00000003 2 (fun byte hi => if hi then byte else byte + 1) (fun w => bit (hasOverflow w))
  ∧ windowRule .err2 0x00000004 2 (fun byte hi => if hi then byte else byte + 1) (fun w => bit (hasError w))

/-- R126, R127: OVF3 and ERR3, the raw predicates over three nibbles. -/
def Obligations.Ovf3AndErr3ReturnThePredicates : Prop :=
  windowRule .ovf3 0x00000005 3 (fun byte _ => byte + 1) (fun w => bit (hasOverflow w))
  ∧ windowRule .err3 0x00000006 3 (fun byte _ => byte + 1) (fun w => bit (hasError w))

/-- R131 with R130: TEMP. -/
def Obligations.TempDecodesTenths : Prop :=
  windowRule .temp 0x00000007 3 (fun byte _ => byte + 1) temperature

/-- R133 with R132: HUM. -/
def Obligations.HumDecodesPercent : Prop :=
  windowRule .hum 0x00000008 2 (fun byte hi => if hi then byte else byte + 1) humidity

/-- R144 with R140, R142 and R143: TS8, whatever the open error pattern is. -/
def Obligations.Ts8DecodesTheShortForm : Prop :=
  windowRule .ts8 0x00000009 8 (fun byte hi => if hi then byte + 3 else byte + 4) timestamp8

/-- R147 with R140 and R146: TS10. That a day, hour or minute field holding a 15 passes where its value is in range is R146's
pseudocode; its second bullet says otherwise, and taking the pseudocode is the model's choice, assumption log 13. -/
def Obligations.Ts10DecodesTheLongForm : Prop :=
  windowRule .ts10 0x0000000A 10 (fun byte hi => if hi then byte + 4 else byte + 5) timestamp10

/-- R174 with R172: BATT for every channel, with no FB read; CH above 8 is no command. -/
def Obligations.BattReportsTheChannel : Prop :=
  (∀ v : Word, (v &&& 0xFFF0FFFF = 0x0000000C ∧ (v.extractLsb' 16 4).toNat ≤ 8)
      ↔ decode v = .ok (.batt (v.extractLsb' 16 4)))
  ∧ (∀ s : State, exec (.batt 0) s
      = .next (afterResult s (bit (!s.alarm[1].getLsbD Config.baseBattBit.val)) false))
  ∧ (∀ (ch : BitVec 4) (s : State), 1 ≤ ch.toNat → ch.toNat ≤ 8 →
      exec (.batt ch) s = .next (afterResult s (bit (!s.alarm[0].getLsbD (ch.toNat - 1))) false))

/-! ### PARSE -/

/-- R164: a short PARSE reads nothing, never faults, and leaves the default frame; the BATT register then reads 0x1FF. -/
def Obligations.ShortParseWritesTheDefaults : Prop :=
  (∀ s : State, s.len.toNat < 230 → exec .parse s = .next (afterParse s true defaultFrame false))
  ∧ ∀ s : State, readRegister (afterParse s true defaultFrame false) 0x07 = 0x000001FF

/-- R163 with R160, R161, R165, R167, R168, R169 and R170: a full PARSE whose read set was written completes with every register
as the rules give it, for every POS0 and every error pattern, whatever the rest of the frame buffer holds or lacks (so also where
the window of a timestamp that its paired word gates off was never written); OOR says whether the read set reaches LEN. -/
def Obligations.FullParseDecodesTheFrame : Prop :=
  ∀ (s : State) (image : Nat → Byte), 230 ≤ s.len.toNat →
    holdsImageOn s image (inReadSet (imageValid image)) →
    ∃ oor : Bool, (oor = true ↔ ∃ i, inReadSet (imageValid image) i ∧ s.len.toNat ≤ i)
      ∧ exec .parse s = .next (afterParse s false (frameOf image) oor)

/-- R163's exceptions with R170: the one fault of PARSE is an unwritten byte of its read set, only in a full PARSE; and a full
PARSE with an unwritten byte in its read set faults. A timestamp's window is in the read set where its paired window was written
and is VALID. -/
def Obligations.ParseFaultsOnUnwrittenBytesOnly : Prop :=
  (∀ (s : State) (f : Fault), exec .parse s = .fault f →
    230 ≤ s.len.toNat
    ∧ ∃ i, i < 256 ∧ inReadSet (pairedValid s) i ∧ f = .fbUnwritten i ∧ Memory.read s.fb i = none)
  ∧ (∀ (s : State) (i : Nat), 230 ≤ s.len.toNat → inReadSet (pairedValid s) i →
      Memory.read s.fb i = none → ∃ f, exec .parse s = .fault f)

/-- R170: the bytes a full PARSE reads are exactly its read set, where VALID is judged on the frame it decodes. -/
def Obligations.ParseReadsExactlyItsReadSet : Prop :=
  ∀ (s : State) (fr : Frame) (reads : List Nat), readFrame Config.params s = .got fr reads →
    ∀ i, i ∈ reads ↔ inReadSet (fun c g => (fr.out[c][g]).extractLsb' 16 2 = 0) i

/-- R222's bound: a full PARSE makes at most 301 byte reads. -/
def Obligations.ParseMakesAtMost301Reads : Prop :=
  ∀ (p : Params) (s : State) (fr : Frame) (reads : List Nat), readFrame p s = .got fr reads →
    reads.length ≤ 1 + 9 * (3 * 2 + 3 * 2 + 4 * 5) + 12

/-- R162 with R160 and R9: the stride law in every row and column, column 0's bytes, and every window of every admitted table
within the frame buffer. -/
def Obligations.PositionTableFollowsTheStride : Prop :=
  ∀ (p : Pos0) (c : Fin 9) (f : Fin 10),
    ((positionRom p)[c][f]).byte = ((positionRom p)[0][f]).byte + 24 * c.val
    ∧ ((positionRom p)[c][f]).hi = ((positionRom p)[0][f]).hi
    ∧ npos p c f = npos p 0 f + 48 * c.val
    ∧ ((positionRom p)[c][(0 : Fin 10)]).byte = 26 + 24 * c.val
    ∧ npos p c f + columnWidth f ≤ 512

/-- R171: after every PARSE, short or full, every channel's words have their formats and its timestamps are gated by their
paired words. -/
def Obligations.ParsedFrameIsGated : Prop :=
  ∀ s t : State, exec .parse s = .next t → ∀ c : Fin 9,
    laneOk t.out[c]
    ∧ (tagField t.out[c][(0 : Fin 10)] ≠ 0 → t.out[c][(3 : Fin 10)] = 0)
    ∧ (tagField t.out[c][(1 : Fin 10)] ≠ 0 → t.out[c][(4 : Fin 10)] = 0)
    ∧ (tagField t.out[c][(5 : Fin 10)] ≠ 0 → t.out[c][(8 : Fin 10)] = 0)
    ∧ (tagField t.out[c][(6 : Fin 10)] ≠ 0 → t.out[c][(9 : Fin 10)] = 0)

/-! ### Laws across commands -/

/-- R113(b): BCD2 at a start position is ten times NIB there plus NIB at the next nibble; (d) the next nibble after a byte's
low one is the next byte's high one. -/
def Obligations.Bcd2AgreesWithTwoNibs : Prop :=
  (∀ (byte : Byte) (s t u v : State), exec (.nib byte true) s = .next t → exec (.nib byte false) s = .next u →
      exec (.bcd2 byte true) s = .next v → v.result.toNat = 10 * t.result.toNat + u.result.toNat)
  ∧ (∀ (byte next : Byte) (s t u v : State), next.toNat = byte.toNat + 1 →
      exec (.nib byte false) s = .next t → exec (.nib next true) s = .next u →
      exec (.bcd2 byte false) s = .next v → v.result.toNat = 10 * t.result.toNat + u.result.toNat)

/-- R122: TEMP's TAG is 2 exactly when OVF3 gives 1, and 1 exactly when OVF3 gives 0 and ERR3 gives 1; the same for HUM with
OVF2 and ERR2. -/
def Obligations.TagsAgreeWithThePredicates : Prop :=
  (∀ (byte : Byte) (hi : Bool) (s t o e : State), exec (.temp byte hi) s = .next t →
      exec (.ovf3 byte hi) s = .next o → exec (.err3 byte hi) s = .next e →
      (tagField t.result = 2 ↔ o.result = 1) ∧ (tagField t.result = 1 ↔ o.result = 0 ∧ e.result = 1))
  ∧ (∀ (byte : Byte) (hi : Bool) (s t o e : State), exec (.hum byte hi) s = .next t →
      exec (.ovf2 byte hi) s = .next o → exec (.err2 byte hi) s = .next e →
      (tagField t.result = 2 ↔ o.result = 1) ∧ (tagField t.result = 1 ↔ o.result = 0 ∧ e.result = 1))

/-- R134 with R46, R47 and R48: the words TEMP, HUM, TS8 and TS10 leave are of their formats; TAG 3 is never among them. -/
def Obligations.ResultWordsStayInTheirDomains : Prop :=
  ∀ (byte : Byte) (hi : Bool) (s t : State),
    (exec (.temp byte hi) s = .next t → tempWordOk t.result ∧ tagField t.result ≠ 3)
    ∧ (exec (.hum byte hi) s = .next t → humWordOk t.result ∧ tagField t.result ≠ 3)
    ∧ (exec (.ts8 byte hi) s = .next t → tsWordOk t.result)
    ∧ (exec (.ts10 byte hi) s = .next t → tsWordOk t.result)

/-- R149: the hour and minute for every tim1, tim2 and tim3, and that every valid time has exactly one encoding with
tim3 ≤ 9. -/
def Obligations.CarryRuleOutcomes : Prop :=
  (∀ tim1 tim2 : Nibble,
    (tim2.toNat ≤ 9 → tim1.toNat ≤ 9 → carryHour tim1 tim2 = tim1.toNat)
    ∧ (tim2.toNat ≤ 9 → 10 ≤ tim1.toNat → carryHour tim1 tim2 = tim1.toNat + 10)
    ∧ (10 ≤ tim2.toNat → tim1.toNat ≤ 9 → carryHour tim1 tim2 = tim1.toNat + 10)
    ∧ (10 ≤ tim2.toNat → 10 ≤ tim1.toNat → carryHour tim1 tim2 = tim1.toNat + 20))
  ∧ (∀ tim2 tim3 : Nibble,
    (tim2.toNat ≤ 9 → carryMinute tim2 tim3 = 10 * tim2.toNat + tim3.toNat)
    ∧ (10 ≤ tim2.toNat → carryMinute tim2 tim3 = 10 * (tim2.toNat - 10) + tim3.toNat)
    ∧ (carryMinute tim2 tim3 ≤ 59 ↔ tim2.toNat ≤ 4 ∨ (10 ≤ tim2.toNat ∧ tim2.toNat ≤ 14)
        ∨ ((tim2.toNat = 5 ∨ tim2.toNat = 15) ∧ tim3.toNat ≤ 9)))
  ∧ (∀ hour minute : Nat, hour ≤ 23 → minute ≤ 59 →
    ∃ a b c : Nibble, (c.toNat ≤ 9 ∧ carryHour a b = hour ∧ carryMinute b c = minute)
      ∧ ∀ a' b' c' : Nibble, c'.toNat ≤ 9 → carryHour a' b' = hour → carryMinute b' c' = minute →
          a' = a ∧ b' = b ∧ c' = c)

/-! ### Frames and the inputs of a command -/

/-- What a single-field command leaves unchanged: every register but RESULT, STATUS.SHORT and PARSED, and every byte of FB. -/
def Obligations.SingleFieldCommandFrame : Prop :=
  ∀ (i : Instr) (s t : State), i ≠ .parse → exec i s = .next t →
    t.cmd = s.cmd ∧ t.len = s.len ∧ t.captIn = s.captIn ∧ t.sigq = s.sigq ∧ t.capt = s.capt
    ∧ t.alarm = s.alarm ∧ t.out = s.out
    ∧ t.status.short = s.status.short ∧ t.status.parsed = s.status.parsed
    ∧ (∀ a, Memory.read t.fb a = Memory.read s.fb a)
    ∧ t.pending = s.pending ∧ t.answers = s.answers ∧ t.accessCount = s.accessCount

/-- What PARSE leaves unchanged: RESULT, CMD, the inputs LEN and CAPT_IN, and every byte of FB. -/
def Obligations.ParseLeavesResultAndInputs : Prop :=
  ∀ s t : State, exec .parse s = .next t →
    t.cmd = s.cmd ∧ t.len = s.len ∧ t.captIn = s.captIn ∧ t.result = s.result
    ∧ (∀ a, Memory.read t.fb a = Memory.read s.fb a)
    ∧ t.pending = s.pending ∧ t.answers = s.answers ∧ t.accessCount = s.accessCount

/-- R106, R54: a command's effect depends on the FB bytes it reads and on the registers its rule names only: where it completes
from one state, it completes from every state that agrees on those, whatever else the two hold or lack, with the same results. -/
def Obligations.CommandDependsOnItsInputsOnly : Prop :=
  ∀ (i : Instr) (s s' t : State),
    (∀ b, readsByte s b i → Memory.read s'.fb b = Memory.read s.fb b) → sameRegisters s s' i →
    exec i s = .next t →
    ∃ t' : State, exec i s' = .next t' ∧ t'.latchOor = t.latchOor ∧ t'.status.oor = t.status.oor
      ∧ (i ≠ .parse → t'.result = t.result)
      ∧ (i = .parse → t'.out = t.out ∧ t'.sigq = t.sigq ∧ t'.alarm = t.alarm ∧ t'.capt = t.capt
          ∧ t'.status = t.status)

/-- R195, R190: no command is refused, and a command that does not complete reports a read that cannot be made: a byte beyond
the capacity or one never written. -/
def Obligations.CommandsEndNextOrInAModelFault : Prop :=
  ∀ (i : Instr) (s : State),
    (∀ r, exec i s ≠ .refused r)
    ∧ ∀ f, exec i s = .fault f →
        (∃ j, f = .fbBeyondCapacity j ∧ 256 ≤ j)
        ∨ (∃ j, f = .fbUnwritten j ∧ j < 256 ∧ Memory.read s.fb j = none)

/-! ### STATUS and the other registers -/

/-- R34, R35, R37: what each host access does to STATUS: a command write sets DONE, ILL says whether the word was illegal, and a
PARSE alone writes SHORT (and PARSED); reset clears all; no other access changes any bit. -/
def Obligations.StatusIsWrittenByCommandsAndReset : Prop :=
  ∀ (s t : State) (op : HostOp) (rest : List HostOp), s.pending = op :: rest → step s = .next t →
    (∀ v, op = .hwr 0x00 v →
      t.status.done = true
      ∧ (t.status.ill = true ↔ illegalWord v)
      ∧ t.status.oor = t.latchOor
      ∧ (decode v = .ok .parse →
          t.status.parsed = true ∧ (t.status.short = true ↔ s.len.toNat < 230))
      ∧ (decode v ≠ .ok .parse →
          t.status.parsed = s.status.parsed ∧ t.status.short = s.status.short))
    ∧ (op = .reset → t.status = { done := false, short := false, oor := false, ill := false, parsed := false })
    ∧ ((∀ v, op ≠ .hwr 0x00 v) → op ≠ .reset → t.status = s.status)

/-- R33: the STATUS word the host reads. -/
def Obligations.StatusWordLayout : Prop :=
  ∀ s : State,
    let w := readRegister s 0x01
    w.getLsbD 0 = s.status.done ∧ w.getLsbD 1 = s.status.short ∧ w.getLsbD 2 = s.status.oor
    ∧ w.getLsbD 3 = s.status.ill ∧ w.getLsbD 4 = s.status.parsed ∧ w.extractLsb' 5 27 = 0

/-- R29 (addresses and what a read returns; the derived BATT and the packed ALARM registers are stated apart) with R45. -/
def Obligations.RegisterMapReads : Prop :=
  ∀ s : State,
    readRegister s 0x00 = s.cmd ∧ (readRegister s 0x02).toNat = s.len.toNat ∧ readRegister s 0x03 = s.captIn
    ∧ readRegister s 0x04 = s.result ∧ (readRegister s 0x05).toNat = s.sigq.toNat ∧ readRegister s 0x06 = s.capt
    ∧ ∀ (c : Fin 9) (f : Fin 10), readRegister s (BitVec.ofNat 8 (0x10 + 16 * c.val + f.val)) = s.out[c][f]

/-- R30, R31: a read of a reserved address returns 0; a write to a reserved or read-only address changes nothing of the block; a
host read of any register changes nothing of the block, and its answer is the register's value. -/
def Obligations.ReservedAndReadOnlyAddresses : Prop :=
  (∀ (s : State) (a : BitVec 8),
    (0x0B ≤ a.toNat ∧ a.toNat ≤ 0x0F) ∨ (0x10 ≤ a.toNat ∧ 10 ≤ a.toNat % 16) ∨ 0xA0 ≤ a.toNat →
      readRegister s a = 0)
  ∧ (∀ (s : State) (a : BitVec 8) (v : Word) (rest : List HostOp), s.pending = .hwr a v :: rest →
      a ≠ 0x00 → a ≠ 0x02 → a ≠ 0x03 →
      step s = .next { s with pending := rest, accessCount := s.accessCount + 1 })
  ∧ (∀ (s : State) (a : BitVec 8) (rest : List HostOp), s.pending = .hrd a :: rest →
      step s = .next { s with
        pending := rest
        accessCount := s.accessCount + 1
        answers := s.answers ++ [.regWord a (readRegister s a)] })

/-- R39: LEN takes min(v, 256) and changes nothing else; it reads back with bits 31:9 zero; no command changes it; reset value
0. -/
def Obligations.LenClampsAndReadsBack : Prop :=
  (∀ (s : State) (v : Word) (rest : List HostOp), s.pending = .hwr 0x02 v :: rest →
    ∃ l : BitVec 9, l.toNat = min v.toNat 256
      ∧ step s = .next { s with pending := rest, accessCount := s.accessCount + 1, len := l })
  ∧ (∀ s : State, (readRegister s 0x02).extractLsb' 9 23 = 0
      ∧ (readRegister s 0x02).extractLsb' 0 9 = s.len)
  ∧ (∀ (i : Instr) (s t : State), exec i s = .next t → t.len = s.len)
  ∧ State.reset.len = 0

/-- R40: CAPT_IN is written by the host alone and reads back; no command changes it; reset value 0. R169: every PARSE copies it
to CAPT. -/
def Obligations.CaptInIsTheHosts : Prop :=
  (∀ (s : State) (v : Word) (rest : List HostOp), s.pending = .hwr 0x03 v :: rest →
    step s = .next { s with pending := rest, accessCount := s.accessCount + 1, captIn := v })
  ∧ (∀ s : State, readRegister s 0x03 = s.captIn)
  ∧ (∀ (i : Instr) (s t : State), exec i s = .next t → t.captIn = s.captIn)
  ∧ State.reset.captIn = 0
  ∧ ∀ s t : State, exec .parse s = .next t → t.capt = s.captIn

/-- R49: ALARM0, ALARM1 and ALARM2 are the alarm bytes, little-endian. -/
def Obligations.AlarmRegistersAreLittleEndian : Prop :=
  ∀ (s : State) (j : Fin 3) (m : Fin 4),
    (readRegister s (BitVec.ofNat 8 (0x08 + j.val))).extractLsb' (8 * m.val) 8
      = s.alarm[4 * j.val + m.val]

/-- R50 with R172: the BATT register is computed from the current alarm bytes at each read; bits 31:9 read 0; after reset it
reads 0x000001FF. -/
def Obligations.BattRegisterIsDerived : Prop :=
  (∀ s : State,
    (readRegister s 0x07).getLsbD 0 = !(s.alarm[1].getLsbD Config.baseBattBit.val)
    ∧ (∀ c : Nat, 1 ≤ c → c ≤ 8 → (readRegister s 0x07).getLsbD c = !(s.alarm[0].getLsbD (c - 1)))
    ∧ (readRegister s 0x07).extractLsb' 9 23 = 0)
  ∧ readRegister State.reset 0x07 = 0x000001FF

/-! ### The host's frame-buffer port -/

/-- R76: a host byte write sets that byte and its written-mark and changes nothing else; every other byte reads as before. -/
def Obligations.HostByteWriteSetsOneByte : Prop :=
  ∀ (s : State) (i : BitVec 8) (v : Byte) (rest : List HostOp), s.pending = .fwr i v :: rest →
    ∃ m : Memory, step s = .next { s with pending := rest, accessCount := s.accessCount + 1, fb := m }
      ∧ Memory.read m i.toNat = some v
      ∧ ∀ a, a ≠ i.toNat → Memory.read m a = Memory.read s.fb a

/-- R77: a host byte read answers a written byte and changes nothing of the block; an unwritten byte model-faults. -/
def Obligations.HostByteReadAnswersWrittenBytes : Prop :=
  ∀ (s : State) (i : BitVec 8) (rest : List HostOp), s.pending = .frd i :: rest →
    (∀ b, Memory.read s.fb i.toNat = some b →
      step s = .next { s with
        pending := rest
        accessCount := s.accessCount + 1
        answers := s.answers ++ [.fbByte i b] })
    ∧ (Memory.read s.fb i.toNat = none → step s = .fault (.fbUnwritten i.toNat))

/-! ### Reset -/

/-- R211: what the reset event leaves, from any state: every register at its reset value, and no byte of FB written. (That the
host's own list, answers and count stay is the model's choice, assumption log 1.) -/
def Obligations.ResetSetsEveryRegister : Prop :=
  ∀ (s : State) (rest : List HostOp), s.pending = .reset :: rest →
    ∃ t : State, step s = .next t
      ∧ t.cmd = 0x00000000 ∧ readRegister t 0x01 = 0x00000000 ∧ t.len = 0 ∧ t.captIn = 0 ∧ t.result = 0
      ∧ t.sigq = 0 ∧ t.capt = 0
      ∧ (∀ c : Fin 9, t.out[c]
          = #v[0x00010000, 0x00010000, 0x00010000, 0, 0, 0x0001006E, 0x0001006E, 0x0001006E, 0, 0])
      ∧ (∀ k : Fin 12, t.alarm[k] = 0)
      ∧ readRegister t 0x07 = 0x000001FF
      ∧ t.latchOor = false
      ∧ (∀ i, Memory.read t.fb i = none)
      ∧ t.pending = rest ∧ t.answers = s.answers

/-- R212: right after reset a host read of any FB byte model-faults, and so does every window command; a full PARSE does too.
A host write makes the byte defined. -/
def Obligations.UnwrittenBytesFaultAfterReset : Prop :=
  (∀ (i : BitVec 8) (rest : List HostOp),
    step { State.reset with pending := .frd i :: rest } = .fault (.fbUnwritten i.toNat))
  ∧ (∀ (i : Instr) (s : State), (∀ a, Memory.read s.fb a = none) → i ≠ .parse → (∀ ch, i ≠ .batt ch) →
      ∃ f, exec i s = .fault f)
  ∧ (∀ s : State, (∀ a, Memory.read s.fb a = none) → 230 ≤ s.len.toNat → ∃ f, exec .parse s = .fault f)

/-! ### Whole-machine rules -/

/-- R45 and the rules of SIGQ, CAPT and ALARM: in every step that is neither a PARSE nor a reset, the frame registers keep
their values. -/
def Obligations.OnlyParseWritesTheFrame : Prop :=
  ∀ s t : State, step s = .next t → (∀ op rest, s.pending = op :: rest → ¬ isParse op ∧ op ≠ .reset) →
    t.out = s.out ∧ t.sigq = s.sigq ∧ t.capt = s.capt ∧ t.alarm = s.alarm

/-- R13, R52: in every step that is neither a host byte write nor a reset, every byte of FB reads as before; so no command
writes FB. -/
def Obligations.OnlyTheHostWritesTheFrameBuffer : Prop :=
  ∀ s t : State, step s = .next t →
    (∀ op rest, s.pending = op :: rest → (∀ i v, op ≠ .fwr i v) ∧ op ≠ .reset) →
    ∀ a, Memory.read t.fb a = Memory.read s.fb a

/-- R41: in every step that is neither a legal single-field command nor a reset, RESULT keeps its value. -/
def Obligations.OnlySingleFieldCommandsWriteResult : Prop :=
  ∀ s t : State, step s = .next t →
    (∀ op rest, s.pending = op :: rest → ¬ isSingleField op ∧ op ≠ .reset) → t.result = s.result

/-- R220, R173: over any run of steps without a PARSE and without a reset, whatever else the host writes, the frame registers
and the BATT register keep their values. -/
def Obligations.FrameIsASnapshotUntilTheNextParse : Prop :=
  ∀ (k : Nat) (s t : State), Host.Core.run core k s = .next t →
    (∀ op, op ∈ s.pending.take k → ¬ isParse op ∧ op ≠ .reset) →
    t.out = s.out ∧ t.sigq = s.sigq ∧ t.capt = s.capt ∧ t.alarm = s.alarm
    ∧ readRegister t 0x07 = readRegister s 0x07

/-- Every step keeps the invariant: canonical memory, a legal LEN, OOR equal to the latch, consistent STATUS bits, reset values
while PARSED = 0, the short frame while SHORT = 1, and every frame word of its format with gated timestamps. -/
def Obligations.StepKeepsTheInvariant : Prop :=
  ∀ s t : State, Inv s → step s = .next t → Inv t

/-- The invariant holds after reset. -/
def Obligations.ResetMeetsTheInvariant : Prop :=
  Inv State.reset
end

