-- ==== Sys2Proof/Laws/Fetch.lean ====
section
/-! SUPPORT. What each shared read operation can do, said once: MemRead, groups of reads, windows, and the end of a command. -/

namespace Sys2Proof.Machine

/-! ### Groups of reads -/

theorem Fetch.map_got {α β : Type} {g : α → β} {r : Fetch α} {v : β} {rs : List Nat} :
    r.map g = .got v rs ↔ ∃ u, r = .got u rs ∧ g u = v := by
  cases r <;> simp [Fetch.map, and_comm]

theorem Fetch.map_failed {α β : Type} {g : α → β} {r : Fetch α} {f : Fault} {fs : List Fault} :
    r.map g = .failed f fs ↔ r = .failed f fs := by
  cases r <;> simp [Fetch.map]

theorem Fetch.both_got {α β γ : Type} {g : α → β → γ} {a : Fetch α} {b : Fetch β} {v : γ}
    {rs : List Nat} :
    Fetch.both g a b = .got v rs ↔
      ∃ x y xs ys, a = .got x xs ∧ b = .got y ys ∧ g x y = v ∧ xs ++ ys = rs := by
  cases a <;> cases b <;> simp [Fetch.both]

/-- The faults of a group that does not give a value. -/
def Fetch.faults {α : Type} : Fetch α → List Fault
  | .got _ _ => []
  | .failed f fs => f :: fs

theorem Fetch.faults_map {α β : Type} (g : α → β) (r : Fetch α) : (r.map g).faults = r.faults := by
  cases r <;> rfl

theorem Fetch.faults_both {α β γ : Type} (g : α → β → γ) (a : Fetch α) (b : Fetch β) :
    (Fetch.both g a b).faults = a.faults ++ b.faults := by
  cases a <;> cases b <;> simp [Fetch.both, Fetch.faults]

theorem Fetch.mem_faults_collect {α : Type} {n : Nat} {g : Fin n → Fetch α} {f : Fault} :
    f ∈ (Fetch.collect n g).faults ↔ ∃ j, f ∈ (g j).faults := by
  induction n with
  | zero => simp [Fetch.collect, Fetch.faults]
  | succ n ih => simp only [Fetch.collect, Fetch.faults_both, List.mem_append, ih, Fin.exists_fin_succ']

/-- A group gives a value exactly when none of its reads faults. -/
theorem Fetch.got_of_faults_nil {α : Type} {r : Fetch α} (h : r.faults = []) :
    ∃ v rs, r = .got v rs := by
  cases r with
  | got v rs => exact ⟨v, rs, rfl⟩
  | failed f fs => simp [Fetch.faults] at h

/-- If every part gives its value, the whole gives the vector of values, in order. -/
theorem Fetch.collect_of_got {α : Type} {n : Nat} {g : Fin n → Fetch α} {v : Fin n → α}
    {rs : Fin n → List Nat} (h : ∀ j, g j = .got (v j) (rs j)) :
    Fetch.collect n g = .got (Vector.ofFn v) (List.ofFn rs).flatten := by
  induction n with
  | zero => simp [Fetch.collect]
  | succ n ih =>
    rw [Fetch.collect, ih (fun j => h j.castSucc), h (Fin.last n)]
    simp only [Fetch.both, Fetch.got.injEq]
    constructor
    · apply Vector.ext
      intro i hi
      rw [Vector.getElem_push, Vector.getElem_ofFn]
      split
      · rw [Vector.getElem_ofFn]; rfl
      · have : i = n := by omega
        subst this; rfl
    · rw [List.ofFn_succ_last]; simp

/-- If the whole gives a value, every part gives its element. -/
theorem Fetch.collect_got {α : Type} {n : Nat} {g : Fin n → Fetch α} {vs : Vector α n}
    {rs : List Nat} (h : Fetch.collect n g = .got vs rs) :
    ∃ qs : Fin n → List Nat, (∀ j, g j = .got vs[j] (qs j)) ∧ rs = (List.ofFn qs).flatten := by
  have hnone : ∀ j, (g j).faults = [] := by
    intro j
    apply List.eq_nil_iff_forall_not_mem.mpr
    intro f hf
    have := Fetch.mem_faults_collect.mpr ⟨j, hf⟩
    rw [h] at this; simp [Fetch.faults] at this
  choose v qs hv using fun j => Fetch.got_of_faults_nil (hnone j)
  rw [Fetch.collect_of_got hv] at h
  obtain ⟨rfl, rfl⟩ := Fetch.got.inj h
  exact ⟨qs, by simpa using hv, rfl⟩

/-! ### MemRead -/

theorem memRead_got {s : State} {i : Nat} {b : Byte} {rs : List Nat} :
    memRead s i = .got b rs ↔ i < Config.bufCap ∧ Memory.read s.fb i = some b ∧ rs = [i] := by
  unfold memRead
  by_cases h : Config.bufCap ≤ i
  · simp [h]
  · simp only [h, if_false, Nat.lt_of_not_le h, true_and]
    cases Memory.read s.fb i <;> simp [eq_comm]

theorem memRead_faults (s : State) (i : Nat) :
    (memRead s i).faults = (readFault s i).toList := by
  unfold memRead readFault
  by_cases h : Config.bufCap ≤ i
  · simp [h, Fetch.faults]
  · cases hr : Memory.read s.fb i <;> simp [h, Fetch.faults]

theorem readFault_eq_none {s : State} {i : Nat} :
    readFault s i = none ↔ i < Config.bufCap ∧ ∃ b, Memory.read s.fb i = some b := by
  unfold readFault
  by_cases h : Config.bufCap ≤ i
  · simp [h]
  · cases Memory.read s.fb i <;> simp [h, Nat.lt_of_not_le h]

/-! ### Windows -/

theorem inWindow_iff_span {n k i : Nat} (hk : 0 < k) :
    inWindow n k i ↔ ∃ j, j < spanLen n k ∧ i = n / 2 + j := by
  unfold inWindow windowTop spanLen
  constructor
  · intro h; exact ⟨i - n / 2, by omega, by omega⟩
  · rintro ⟨j, hj, rfl⟩; omega

/-- A window's faults are those of the bytes it spans (R73, R74). -/
theorem mem_faults_win {s : State} {n k : Nat} {f : Fault} (hk : 0 < k) :
    f ∈ (win s n k).faults ↔ ∃ i, inWindow n k i ∧ readFault s i = some f := by
  unfold win spanBytes
  rw [Fetch.faults_map, Fetch.mem_faults_collect]
  constructor
  · rintro ⟨j, hj⟩
    rw [memRead_faults, Option.mem_toList] at hj
    exact ⟨n / 2 + j.val, (inWindow_iff_span hk).mpr ⟨j.val, j.isLt, rfl⟩, hj⟩
  · rintro ⟨i, hi, hf⟩
    obtain ⟨j, hj, rfl⟩ := (inWindow_iff_span hk).mp hi
    exact ⟨⟨j, hj⟩, by rw [memRead_faults]; simpa using hf⟩

theorem flatten_singletons (m : Nat) (g : Nat → Nat) :
    (List.ofFn fun j : Fin m => [g j.val]).flatten = (List.range m).map g := by
  induction m with
  | zero => simp
  | succ m ih =>
    rw [List.ofFn_succ_last]
    simp only [List.flatten_append, List.range_succ, List.map_append]
    rw [← ih]; simp

/-- The bytes a window reads, in order, each once (R73). -/
def windowReads (n k : Nat) : List Nat := (List.range (spanLen n k)).map (n / 2 + ·)

theorem mem_windowReads {n k i : Nat} (hk : 0 < k) : i ∈ windowReads n k ↔ inWindow n k i := by
  rw [inWindow_iff_span hk]
  simp [windowReads, eq_comm]

/-- A window whose bytes were written is read, and its elements are the nibbles there, in order (R72, R73). -/
theorem win_of_holds {s : State} {n k : Nat} {w : Vector Nibble k} (hk : 0 < k)
    (h : holdsWindow s n w) : win s n k = .got w (windowReads n k) := by
  obtain ⟨hcap, hnib⟩ := h
  have hbyte : ∀ j : Fin (spanLen n k), ∃ b, Memory.read s.fb (n / 2 + j.val) = some b := by
    intro j
    have hj := j.isLt
    unfold spanLen at hj
    by_cases h0 : j.val = 0
    · have := hnib ⟨0, hk⟩
      unfold nibbleAt at this
      rw [Option.map_eq_some_iff] at this
      obtain ⟨b, hb, -⟩ := this
      exact ⟨b, by simpa [h0] using hb⟩
    · have hlt : 2 * (n / 2 + j.val) - n < k := by omega
      have := hnib ⟨2 * (n / 2 + j.val) - n, hlt⟩
      unfold nibbleAt at this
      rw [Option.map_eq_some_iff] at this
      obtain ⟨b, hb, -⟩ := this
      have he : (n + (2 * (n / 2 + j.val) - n)) / 2 = n / 2 + j.val := by omega
      exact ⟨b, by simpa [he] using hb⟩
  choose b hb using hbyte
  have hread : ∀ j : Fin (spanLen n k),
      memRead s (n / 2 + j.val) = .got (b j) [n / 2 + j.val] := by
    intro j
    have hj := j.isLt
    unfold spanLen at hj
    exact memRead_got.mpr ⟨by unfold Config.bufCap; omega, hb j, rfl⟩
  unfold win spanBytes
  rw [Fetch.collect_of_got hread]
  simp only [Fetch.map, Fetch.got.injEq]
  constructor
  · apply Vector.ext
    intro j hj
    rw [Vector.getElem_ofFn, Vector.getElem_ofFn]
    have := hnib ⟨j, hj⟩
    unfold nibbleAt at this
    have hlt : (n + j) / 2 - n / 2 < spanLen n k := by unfold spanLen; omega
    have he : n / 2 + ((n + j) / 2 - n / 2) = (n + j) / 2 := by omega
    have hbj := hb ⟨(n + j) / 2 - n / 2, hlt⟩
    simp only [he] at hbj
    simp only [hbj, Option.map_some, Option.some.injEq] at this
    exact this
  · exact flatten_singletons (spanLen n k) (n / 2 + ·)

/-- If a window is read, its bytes were written and its elements are the nibbles there. -/
theorem holds_of_win {s : State} {n k : Nat} {w : Vector Nibble k} {rs : List Nat} (hk : 0 < k)
    (h : win s n k = .got w rs) : holdsWindow s n w ∧ rs = windowReads n k := by
  have hwin := h
  unfold win spanBytes at h
  obtain ⟨bytes, hc, hw⟩ := Fetch.map_got.mp h
  obtain ⟨qs, hq, -⟩ := Fetch.collect_got hc
  have hold : holdsWindow s n w := by
    refine ⟨?_, ?_⟩
    · have hlast : spanLen n k - 1 < spanLen n k := by unfold spanLen; omega
      have := (memRead_got.mp (hq ⟨spanLen n k - 1, hlast⟩)).1
      simp only [Config.bufCap, spanLen] at this
      omega
    · intro j
      have hlt : (n + j.val) / 2 - n / 2 < spanLen n k := by
        have := j.isLt; unfold spanLen; omega
      have hb := (memRead_got.mp (hq ⟨(n + j.val) / 2 - n / 2, hlt⟩)).2.1
      have he : n / 2 + ((n + j.val) / 2 - n / 2) = (n + j.val) / 2 := by omega
      simp only [he] at hb
      subst hw
      simp [nibbleAt, hb]
  refine ⟨hold, ?_⟩
  rw [win_of_holds hk hold] at hwin
  exact (Fetch.got.inj hwin).2.symm

/-! ### The end of a command -/

theorem pickFault_mem (s : State) (f : Fault) (fs : List Fault) : pickFault s f fs ∈ f :: fs := by
  cases fs with
  | nil => simp [pickFault]
  | cons e es =>
    have hlt : Config.faultPick s.accessCount % (es.length + 2) < (f :: e :: es).length := by
      simpa using Nat.mod_lt (Config.faultPick s.accessCount) (Nat.succ_pos (es.length + 1))
    simp only [pickFault, List.getD_eq_getElem?_getD, List.getElem?_eq_getElem hlt, Option.getD_some]
    exact List.getElem_mem hlt

/-- A command that answers next committed what it read, and then its STATUS. -/
theorem finishCommand_next {α : Type} {s t : State} {r : Fetch α} {commit : State → α → State} :
    finishCommand s r commit = .next t ↔
      ∃ v rs, r = .got v rs ∧ t = (commit s v).completeLegal (s.latched rs) := by
  cases r <;> simp [finishCommand, eq_comm]

/-- A command that faults reports one of its faulting reads (R196(3)). -/
theorem finishCommand_fault {α : Type} {s : State} {r : Fetch α} {commit : State → α → State}
    {f : Fault} (h : finishCommand s r commit = .fault f) : f ∈ r.faults := by
  cases r with
  | got v rs => simp [finishCommand] at h
  | failed e es =>
    simp only [finishCommand, Host.Outcome.fault.injEq] at h
    rw [← h]; exact pickFault_mem s e es

/-- A command with a faulting read faults. -/
theorem finishCommand_of_fault {α : Type} {s : State} {r : Fetch α} {commit : State → α → State}
    (h : r.faults ≠ []) : ∃ f, f ∈ r.faults ∧ finishCommand s r commit = .fault f := by
  cases r with
  | got v rs => simp [Fetch.faults] at h
  | failed e es => exact ⟨pickFault s e es, pickFault_mem s e es, rfl⟩

theorem finishCommand_ne_refused {α : Type} (s : State) (r : Fetch α) (commit : State → α → State)
    (x : Refusal) : finishCommand s r commit ≠ .refused x := by
  cases r <;> simp [finishCommand]

/-- The latch over a window is decided by its highest byte (R74, R75). -/
theorem latched_windowReads (s : State) {n k : Nat} (hk : 0 < k) :
    s.latched (windowReads n k) = decide (s.len.toNat ≤ windowTop n k) := by
  unfold State.latched
  rw [Bool.eq_iff_iff, List.any_eq_true, decide_eq_true_eq]
  constructor
  · rintro ⟨i, hi, hle⟩
    have := ((mem_windowReads hk).mp hi).2
    rw [decide_eq_true_eq] at hle; omega
  · intro h
    refine ⟨windowTop n k, (mem_windowReads hk).mpr ⟨?_, Nat.le_refl _⟩, by simpa using h⟩
    unfold windowTop; omega

end Sys2Proof.Machine
end

