-- ==== Sys2Proof/Laws/Params.lean ====
section
/-! SUPPORT. The position table: the type of POS0 holds exactly the tables 00_scope.md R9 admits, and the arithmetic of NPOS. -/

namespace Sys2Proof.Machine

/-- A start position's nibble index, back from its byte and alignment (R71). -/
theorem nibbleIndex_div_mod (n : Nat) : nibbleIndex (n / 2) (decide (n % 2 = 0)) = n := by
  unfold nibbleIndex
  by_cases h : n % 2 = 0
  · simp [h]; omega
  · simp [h]; omega

theorem nibbleIndex_add (byte k : Nat) (hi : Bool) :
    nibbleIndex (byte + k) hi = nibbleIndex byte hi + 2 * k := by
  unfold nibbleIndex; omega

theorem nibbleIndex_eq_ite (byte : Nat) (hi : Bool) :
    nibbleIndex byte hi = 2 * byte + (if hi then 0 else 1) := by
  cases hi <;> simp [nibbleIndex]

theorem nibbleIndex_inj {b b' : Nat} {h h' : Bool} :
    nibbleIndex b h = nibbleIndex b' h' ↔ b = b' ∧ h = h' := by
  cases h <;> cases h' <;> simp [nibbleIndex] <;> omega

/-- `NPOS(c, f) = NPOS(0, f) + 48*c`, with row 0 as it is stored. -/
theorem npos_eq (p : Pos0) (c : Fin 9) (f : Fin 10) :
    npos p c f = (Pos0.indices p)[f] + 48 * c.val := by
  simp only [npos, positionRom, Fin.getElem_fin, Vector.getElem_ofFn, nibbleIndex_add, Pos0.start,
    Config.stride]
  rw [nibbleIndex_div_mod]
  omega

/-- Every admitted row 0 keeps every window of every channel within the frame buffer (R9(b)). -/
theorem npos_window_fits (p : Pos0) (c : Fin 9) (f : Fin 10) :
    npos p c f + columnWidth f ≤ 512 := by
  have hc := c.isLt
  have key : (Pos0.indices p)[f] + columnWidth f ≤ 128 := by
    have h0 : nibbleIndex 26 p.hi0 ≤ 53 := by cases p.hi0 <;> decide
    have h1 := p.col1.isLt
    have h2 := p.col2.isLt
    have h3 := p.col3.isLt
    have h4 := p.col4.isLt
    have h5 := p.col5.isLt
    have h6 := p.col6.isLt
    have h7 := p.col7.isLt
    have h8 := p.col8.isLt
    have h9 := p.col9.isLt
    match f with
    | 0 => simp [Pos0.indices, columnWidth, columnUnits]; omega
    | 1 => simp [Pos0.indices, columnWidth, columnUnits]; omega
    | 2 => simp [Pos0.indices, columnWidth, columnUnits]; omega
    | 3 => simp [Pos0.indices, columnWidth, columnUnits]; omega
    | 4 => simp [Pos0.indices, columnWidth, columnUnits]; omega
    | 5 => simp [Pos0.indices, columnWidth, columnUnits]; omega
    | 6 => simp [Pos0.indices, columnWidth, columnUnits]; omega
    | 7 => simp [Pos0.indices, columnWidth, columnUnits]; omega
    | 8 => simp [Pos0.indices, columnWidth, columnUnits]; omega
    | 9 => simp [Pos0.indices, columnWidth, columnUnits]; omega
  rw [npos_eq]; omega

/-- Column 0 of row 0 is at byte 26 (R9(a)). -/
theorem start_zero_byte (p : Pos0) : (Pos0.start p 0).byte = 26 := by
  cases h : p.hi0 <;> simp [Pos0.start, Pos0.indices, nibbleIndex, h]

/-- Every row 0 that meets R9 is a value of `Pos0`: the type shuts no admitted table out. -/
theorem pos0_complete (start : Fin 10 → StartPos) (h0 : (start 0).byte = 26)
    (hfit : ∀ (c : Fin 9) (f : Fin 10),
      nibbleIndex ((start f).byte + 24 * c.val) (start f).hi + columnWidth f ≤ 512) :
    ∃ p : Pos0, ∀ f, Pos0.start p f = start f := by
  have hrow : ∀ f, nibbleIndex (start f).byte (start f).hi + columnWidth f ≤ 128 := by
    intro f
    have := hfit 8 f
    rw [nibbleIndex_add] at this
    have h8 : ((8 : Fin 9)).val = 8 := rfl
    omega
  have back : ∀ f, (StartPos.mk (nibbleIndex (start f).byte (start f).hi / 2)
      (decide (nibbleIndex (start f).byte (start f).hi % 2 = 0))) = start f := by
    intro f
    have := nibbleIndex_div_mod (nibbleIndex (start f).byte (start f).hi)
    obtain ⟨hb, hh⟩ := nibbleIndex_inj.mp this
    cases hs : start f
    simp_all
  have w : ∀ f, columnWidth f = if f.val < 3 then 3 else if 5 ≤ f.val ∧ f.val ≤ 7 then 2 else 8 := by
    decide
  refine ⟨{ hi0 := (start 0).hi
            col1 := ⟨nibbleIndex (start 1).byte (start 1).hi, by have := hrow 1; simp [w] at this; omega⟩
            col2 := ⟨nibbleIndex (start 2).byte (start 2).hi, by have := hrow 2; simp [w] at this; omega⟩
            col3 := ⟨nibbleIndex (start 3).byte (start 3).hi, by have := hrow 3; simp [w] at this; omega⟩
            col4 := ⟨nibbleIndex (start 4).byte (start 4).hi, by have := hrow 4; simp [w] at this; omega⟩
            col5 := ⟨nibbleIndex (start 5).byte (start 5).hi, by have := hrow 5; simp [w] at this; omega⟩
            col6 := ⟨nibbleIndex (start 6).byte (start 6).hi, by have := hrow 6; simp [w] at this; omega⟩
            col7 := ⟨nibbleIndex (start 7).byte (start 7).hi, by have := hrow 7; simp [w] at this; omega⟩
            col8 := ⟨nibbleIndex (start 8).byte (start 8).hi, by have := hrow 8; simp [w] at this; omega⟩
            col9 := ⟨nibbleIndex (start 9).byte (start 9).hi, by have := hrow 9; simp [w] at this; omega⟩ }, ?_⟩
  intro f
  match f with
  | 0 =>
    have h := back 0
    rw [h0] at h
    exact h
  | 1 => exact back 1
  | 2 => exact back 2
  | 3 => exact back 3
  | 4 => exact back 4
  | 5 => exact back 5
  | 6 => exact back 6
  | 7 => exact back 7
  | 8 => exact back 8
  | 9 => exact back 9

end Sys2Proof.Machine
end

