-- ==== Sys2Proof/Laws/Words.lean ====
section
/-! SUPPORT. The decoders' words: their fields, their domains, and the sentinel predicates as statements about nibbles. -/

namespace Sys2Proof.Machine

/-! ### Fields of a word put together -/

/-- A concatenation's number: the high part times 2^n plus the low part. -/
theorem append_toNat {m n : Nat} (x : BitVec m) (y : BitVec n) :
    (x ++ y).toNat = x.toNat * 2 ^ n + y.toNat := by
  rw [BitVec.toNat_append, ← Nat.shiftLeft_add_eq_or_of_lt y.isLt, Nat.shiftLeft_eq]

theorem field_toNat {m : Nat} (v : BitVec m) (lo len : Nat) :
    (v.extractLsb' lo len).toNat = v.toNat / 2 ^ lo % 2 ^ len := by
  rw [BitVec.extractLsb'_toNat, Nat.shiftRight_eq_div_pow]

theorem bit_toNat {m : Nat} (v : BitVec m) (i : Nat) :
    v.getLsbD i = decide (v.toNat / 2 ^ i % 2 = 1) := by
  rw [BitVec.getLsbD, Nat.testBit_eq_decide_div_mod_eq]

theorem tempWord_toNat (tag : Tag) (v : BitVec 16) :
    (tempWord tag v).toNat = tag.code.toNat * 2 ^ 16 + v.toNat := by
  unfold tempWord; rw [append_toNat, append_toNat]; simp

theorem humWord_toNat (tag : Tag) (v : BitVec 8) :
    (humWord tag v).toNat = tag.code.toNat * 2 ^ 16 + v.toNat := by
  unfold humWord; rw [append_toNat, append_toNat, append_toNat]; simp; omega

theorem tagField_tempWord (tag : Tag) (v : BitVec 16) : tagField (tempWord tag v) = tag.code := by
  have h1 := v.isLt
  have h2 := tag.code.isLt
  apply BitVec.eq_of_toNat_eq
  rw [tagField, field_toNat, tempWord_toNat]
  omega

theorem tagField_humWord (tag : Tag) (v : BitVec 8) : tagField (humWord tag v) = tag.code := by
  have h1 := v.isLt
  have h2 := tag.code.isLt
  apply BitVec.eq_of_toNat_eq
  rw [tagField, field_toNat, humWord_toNat]
  omega

theorem code_eq_zero (tag : Tag) : tag.code = 0 ↔ tag = .valid := by cases tag <;> decide

theorem code_ne_three (tag : Tag) : tag.code ≠ 3 := by cases tag <;> decide

/-! ### Sentinels -/

theorem any_nibble {k : Nat} (w : Vector Nibble k) (P : Nibble → Bool) :
    w.toList.any P = true ↔ ∃ j : Fin k, P w[j] = true := by
  rw [List.any_eq_true]
  constructor
  · rintro ⟨x, hx, hP⟩
    obtain ⟨j, hj, rfl⟩ := List.mem_iff_getElem.mp hx
    exact ⟨⟨j, by simpa using hj⟩, by simpa using hP⟩
  · rintro ⟨j, hP⟩
    exact ⟨w[j], by simp, hP⟩

/-- R120. -/
theorem ovf_iff {k : Nat} (w : Vector Nibble k) : ovf w = true ↔ ∃ j : Fin k, w[j].toNat = 15 := by
  rw [ovf, any_nibble]; simp

/-- R121. -/
theorem err_iff {k : Nat} (w : Vector Nibble k) :
    err w = true ↔ ∃ j : Fin k, 10 ≤ w[j].toNat ∧ w[j].toNat ≤ 14 := by
  rw [err, any_nibble]; simp

/-- The classification is VALID exactly when every nibble is a decimal digit (R122). -/
theorem classify_valid_iff {k : Nat} (w : Vector Nibble k) :
    classify w = .valid ↔ ∀ j : Fin k, w[j].toNat ≤ 9 := by
  have hclass : classify w = .valid ↔ ¬ (ovf w = true) ∧ ¬ (err w = true) := by
    unfold classify
    cases ovf w <;> cases err w <;> simp
  rw [hclass, ovf_iff, err_iff]
  constructor
  · rintro ⟨h1, h2⟩ j
    have := w[j].isLt
    by_contra h
    by_cases h15 : w[j].toNat = 15
    · exact h1 ⟨j, h15⟩
    · exact h2 ⟨j, by omega, by omega⟩
  · intro h
    exact ⟨fun ⟨j, hj⟩ => by have := h j; omega, fun ⟨j, hj⟩ => by have := h j; omega⟩

theorem classify_outOfLimits_iff {k : Nat} (w : Vector Nibble k) :
    classify w = .outOfLimits ↔ ovf w = true := by
  unfold classify; cases ovf w <;> cases err w <;> simp

theorem classify_notPresent_iff {k : Nat} (w : Vector Nibble k) :
    classify w = .notPresent ↔ ovf w = false ∧ err w = true := by
  unfold classify; cases ovf w <;> cases err w <;> simp

/-! ### Temperature and humidity words -/

theorem tagField_decTemp (w : Vector Nibble 3) : tagField (decTemp w) = (classify w).code := by
  unfold decTemp; cases h : classify w <;> exact tagField_tempWord _ _

theorem tagField_decHum (w : Vector Nibble 2) : tagField (decHum w) = (classify w).code := by
  unfold decHum; cases h : classify w <;> exact tagField_humWord _ _

theorem tenths_range {w : Vector Nibble 3} (h : classify w = .valid) :
    -400 ≤ tenths w ∧ tenths w ≤ 599 := by
  have hd := (classify_valid_iff w).mp h
  have h0 : w[0].toNat ≤ 9 := hd 0
  have h1 : w[1].toNat ≤ 9 := hd 1
  have h2 : w[2].toNat ≤ 9 := hd 2
  unfold tenths Config.tempOffset
  omega

theorem ofInt16_toInt {t : Int} (h1 : -400 ≤ t) (h2 : t ≤ 599) : (BitVec.ofInt 16 t).toInt = t := by
  rw [BitVec.toInt_ofInt, Int.bmod_eq_of_le] <;> omega

theorem decTemp_ok (w : Vector Nibble 3) : tempWordOk (decTemp w) := by
  unfold decTemp
  cases h : classify w with
  | outOfLimits => exact .inr (.inl rfl)
  | notPresent => exact .inl rfl
  | valid =>
    refine .inr (.inr ⟨?_, ?_⟩)
    · apply BitVec.eq_of_toNat_eq
      have := (BitVec.ofInt 16 (tenths w)).isLt
      have hc : (Tag.code .valid).toNat = 0 := rfl
      have hz : (0#16).toNat = 0 := rfl
      show _ = (0#16).toNat
      rw [field_toNat, tempWord_toNat, hc, hz]
      omega
    · have hv : (tempWord .valid (BitVec.ofInt 16 (tenths w))).extractLsb' 0 16
          = BitVec.ofInt 16 (tenths w) := by
        apply BitVec.eq_of_toNat_eq
        have := (BitVec.ofInt 16 (tenths w)).isLt
        rw [field_toNat, tempWord_toNat]
        omega
      obtain ⟨h1, h2⟩ := tenths_range h
      rw [hv, ofInt16_toInt h1 h2]
      exact ⟨h1, h2⟩

theorem decHum_ok (w : Vector Nibble 2) : humWordOk (decHum w) := by
  unfold decHum
  cases h : classify w with
  | outOfLimits => exact .inr (.inl rfl)
  | notPresent => exact .inl rfl
  | valid =>
    refine .inr (.inr ?_)
    have hd := (classify_valid_iff w).mp h
    have h0 : w[0].toNat ≤ 9 := hd 0
    have h1 : w[1].toNat ≤ 9 := hd 1
    have hc : (Tag.code .valid).toNat = 0 := rfl
    show (humWord .valid _).toNat ≤ 99
    rw [humWord_toNat, hc, BitVec.toNat_ofNat]
    have := Nat.mod_le (10 * w[0].toNat + w[1].toNat) (2 ^ 8)
    omega

/-! ### Timestamp words -/

theorem tsword_toNat (year month day hour minute : Nat) :
    (tsword year month day hour minute).toNat
      = 2 ^ 31 + (year - 2000) % 256 * 2 ^ 20 + month % 16 * 2 ^ 16 + day % 32 * 2 ^ 11
        + hour % 32 * 2 ^ 6 + minute % 64 := by
  unfold tsword Config.yearBase
  simp only [append_toNat, BitVec.toNat_ofNat]
  omega

theorem calOk_iff (month day hour minute : Nat) :
    calOk month day hour minute = true ↔
      1 ≤ month ∧ month ≤ 12 ∧ 1 ≤ day ∧ day ≤ 31 ∧ hour ≤ 23 ∧ minute ≤ 59 := by
  simp [calOk]

theorem checkedTs_ok {year month day hour minute : Nat} (hy : year ≤ 2165) :
    tsWordOk (checkedTs year month day hour minute) := by
  unfold checkedTs
  by_cases h : calOk month day hour minute = true
  · rw [if_pos h]
    have hc := (calOk_iff _ _ _ _).mp h
    have hn := tsword_toNat year month day hour minute
    refine .inr ⟨?_, ?_, ?_, ?_, ?_, ?_, ?_, ?_⟩
    · rw [bit_toNat, hn, decide_eq_true_eq]; omega
    · apply BitVec.eq_of_toNat_eq
      have hz : (0#3).toNat = 0 := rfl
      show _ = (0#3).toNat
      rw [field_toNat, hn, hz]; omega
    all_goals rw [field_toNat, hn]; omega
  · rw [if_neg h]; exact .inl rfl

theorem bcd2_le (a b : Nibble) : bcd2 a b ≤ 165 := by
  have h1 := a.isLt
  have h2 := b.isLt
  unfold bcd2; omega

theorem decTS8_ok (pattern w : Vector Nibble 8) : tsWordOk (decTS8 pattern w) := by
  unfold decTS8
  split
  · exact .inl rfl
  · exact checkedTs_ok (by have := bcd2_le w[0] w[1]; unfold Config.yearBase; omega)

theorem decTS10_ok (w : Vector Nibble 10) : tsWordOk (decTS10 w) := by
  unfold decTS10
  split
  · exact .inl rfl
  · exact checkedTs_ok (by have := bcd2_le w[0] w[1]; unfold Config.yearBase; omega)

end Sys2Proof.Machine
end

