-- ==== Sys2Proof/Laws/Commands.lean ====
section
/-! SUPPORT. What each command can do, said once: its next state, its faults, and what it depends on. -/

namespace Sys2Proof.Machine

/-! ### Single-field commands -/

theorem finishResult_next {s t : State} {r : Fetch Word} :
    finishResult s r = .next t ↔
      ∃ v rs, r = .got v rs ∧ t = afterResult s v (s.latched rs) :=
  finishCommand_next

/-- A window command whose window was written: its next state. -/
theorem finishResult_window {s : State} {n k : Nat} {w : Vector Nibble k} (hk : 0 < k)
    (g : Vector Nibble k → Word) (h : holdsWindow s n w) :
    finishResult s ((win s n k).map g)
      = .next (afterResult s (g w) (decide (s.len.toNat ≤ windowTop n k))) := by
  rw [win_of_holds hk h, ← latched_windowReads s hk]
  rfl

/-- A window command one of whose bytes cannot be read: its fault is that of such a byte. -/
theorem finishResult_window_fault {s : State} {n k : Nat} (hk : 0 < k) (g : Vector Nibble k → Word)
    (h : ∃ i, inWindow n k i ∧ (readFault s i).isSome = true) :
    ∃ i f, inWindow n k i ∧ readFault s i = some f
      ∧ finishResult s ((win s n k).map g) = .fault f := by
  obtain ⟨i, hi, hf⟩ := h
  obtain ⟨f, hf⟩ := Option.isSome_iff_exists.mp hf
  have hmem : f ∈ (win s n k).faults := (mem_faults_win hk).mpr ⟨i, hi, hf⟩
  have hne : ((win s n k).map g).faults ≠ [] := by
    rw [Fetch.faults_map]; exact List.ne_nil_of_mem hmem
  obtain ⟨f', hf', hx⟩ := finishCommand_of_fault (commit := fun t v => { t with result := v }) hne
  rw [Fetch.faults_map, mem_faults_win hk] at hf'
  obtain ⟨i', hi', hr'⟩ := hf'
  exact ⟨i', f', hi', hr', hx⟩

/-- A window command that answers next found its window written. -/
theorem finishResult_window_next {s t : State} {n k : Nat} (hk : 0 < k) (g : Vector Nibble k → Word)
    (h : finishResult s ((win s n k).map g) = .next t) :
    ∃ w, holdsWindow s n w
      ∧ t = afterResult s (g w) (decide (s.len.toNat ≤ windowTop n k)) := by
  obtain ⟨v, rs, hr, rfl⟩ := finishResult_next.mp h
  obtain ⟨w, hw, rfl⟩ := Fetch.map_got.mp hr
  obtain ⟨hh, rfl⟩ := holds_of_win hk hw
  exact ⟨w, hh, by rw [latched_windowReads s hk]⟩

/-- Two readings of one window agree. -/
theorem holdsWindow_unique {s : State} {n k : Nat} {w w' : Vector Nibble k} (h : holdsWindow s n w)
    (h' : holdsWindow s n w') : w = w' := by
  apply Vector.ext
  intro j hj
  have := (h.2 ⟨j, hj⟩).symm.trans (h'.2 ⟨j, hj⟩)
  simpa using this

/-! ### What a read depends on -/

theorem memRead_congr {s s' : State} (h : s'.fb = s.fb) (i : Nat) : memRead s' i = memRead s i := by
  unfold memRead; rw [h]

theorem win_congr {s s' : State} (h : s'.fb = s.fb) (n k : Nat) : win s' n k = win s n k := by
  unfold win spanBytes; simp only [memRead_congr h]

theorem latched_congr {s s' : State} (h : s'.len = s.len) (rs : List Nat) :
    s'.latched rs = s.latched rs := by
  unfold State.latched; rw [h]

theorem column_congr (p : Params) {s s' : State} (h : s'.fb = s.fb) (c : Fin 9) (f : Fin 10) :
    column p s' c f = column p s c f := by
  unfold column tsmux tempUnit humUnit; simp only [win_congr h]

theorem readFrame_congr (p : Params) {s s' : State} (h : s'.fb = s.fb) :
    readFrame p s' = readFrame p s := by
  unfold readFrame readSigq readLanes readAlarm
  simp only [memRead_congr h, column_congr p h]

/-- Every command but PARSE reads something that depends on FB and ALARM only, and commits it to RESULT. -/
theorem exec_single (i : Instr) (hi : i ≠ .parse) (s : State) :
    ∃ r : Fetch Word, ∀ s' : State, s'.fb = s.fb → s'.alarm = s.alarm → exec i s' = finishResult s' r := by
  cases i with
  | parse => exact absurd rfl hi
  | nib byte hi =>
    exact ⟨_, fun s' h _ => by
      show finishResult s' ((nib s' _).map _) = _
      unfold nib; rw [memRead_congr h]⟩
  | bcd2 byte hi => exact ⟨_, fun s' h _ => by show finishResult s' ((win s' _ 2).map _) = _; rw [win_congr h]⟩
  | ovf2 byte hi => exact ⟨_, fun s' h _ => by show finishResult s' ((win s' _ 2).map _) = _; rw [win_congr h]⟩
  | err2 byte hi => exact ⟨_, fun s' h _ => by show finishResult s' ((win s' _ 2).map _) = _; rw [win_congr h]⟩
  | ovf3 byte hi => exact ⟨_, fun s' h _ => by show finishResult s' ((win s' _ 3).map _) = _; rw [win_congr h]⟩
  | err3 byte hi => exact ⟨_, fun s' h _ => by show finishResult s' ((win s' _ 3).map _) = _; rw [win_congr h]⟩
  | temp byte hi => exact ⟨_, fun s' h _ => by show finishResult s' ((win s' _ 3).map _) = _; rw [win_congr h]⟩
  | hum byte hi => exact ⟨_, fun s' h _ => by show finishResult s' ((win s' _ 2).map _) = _; rw [win_congr h]⟩
  | ts8 byte hi => exact ⟨_, fun s' h _ => by show finishResult s' ((win s' _ 8).map _) = _; rw [win_congr h]⟩
  | ts10 byte hi => exact ⟨_, fun s' h _ => by show finishResult s' ((win s' _ 10).map _) = _; rw [win_congr h]⟩
  | batt ch =>
    exact ⟨_, fun s' _ h => by
      show finishResult s' (.got (boolWord (battOk _ s'.alarm _)) []) = _
      rw [h]⟩

/-- The next state of every command but PARSE. -/
theorem exec_single_next {i : Instr} (hi : i ≠ .parse) {s t : State} (h : exec i s = .next t) :
    ∃ v oor, t = afterResult s v oor := by
  obtain ⟨r, hr⟩ := exec_single i hi s
  rw [hr s rfl rfl] at h
  obtain ⟨v, rs, -, rfl⟩ := finishResult_next.mp h
  exact ⟨v, _, rfl⟩

/-! ### PARSE -/

/-- The next states of PARSE: the short frame, or what the read phase gave. -/
theorem parse_next {p : Params} {s t : State} :
    parseCommand p s = .next t ↔
      (s.len.toNat < 230 ∧ t = afterParse s true shortFrame false)
      ∨ (230 ≤ s.len.toNat ∧ ∃ fr rs, readFrame p s = .got fr rs
          ∧ t = afterParse s false fr (s.latched rs)) := by
  unfold parseCommand Config.minFrameLen
  by_cases h : s.len.toNat < 230
  · rw [if_pos h]
    constructor
    · intro hx
      obtain ⟨v, rs, hr, rfl⟩ := finishCommand_next.mp hx
      obtain ⟨rfl, rfl⟩ := Fetch.got.inj hr
      exact .inl ⟨h, rfl⟩
    · rintro (⟨-, rfl⟩ | ⟨h', -⟩)
      · rfl
      · omega
  · rw [if_neg h]
    constructor
    · intro hx
      obtain ⟨v, rs, hr, rfl⟩ := finishCommand_next.mp hx
      exact .inr ⟨by omega, v, rs, hr, rfl⟩
    · rintro (⟨h', -⟩ | ⟨-, fr, rs, hr, rfl⟩)
      · omega
      · rw [hr]; rfl

/-- What the read phase gave: the parts, and the bytes each read. -/
theorem readFrame_got {p : Params} {s : State} {fr : Frame} {rs : List Nat}
    (h : readFrame p s = .got fr rs) :
    ∃ (b : Byte) (lane : Fin 9 → Fin 10 → List Nat),
      memRead s 4 = .got b [4] ∧ fr.sigq = b.extractLsb' 0 7
      ∧ (∀ c f, column p s c f = .got fr.out[c][f] (lane c f))
      ∧ (∀ k : Fin 12, memRead s (223 + k.val) = .got fr.alarm[k] [223 + k.val])
      ∧ rs = [4] ++ (List.ofFn fun c => (List.ofFn (lane c)).flatten).flatten
          ++ (List.ofFn fun k : Fin 12 => [223 + k.val]).flatten := by
  unfold readFrame at h
  obtain ⟨x, al, xs, ys, hx, hal, rfl, rfl⟩ := Fetch.both_got.mp h
  obtain ⟨sq, out, as, bs, hsq, hout, rfl, rfl⟩ := Fetch.both_got.mp hx
  obtain ⟨b, hb, rfl⟩ := Fetch.map_got.mp hsq
  obtain ⟨-, -, rfl⟩ := memRead_got.mp hb
  obtain ⟨qs, hq, rfl⟩ := Fetch.collect_got hout
  choose lane hlane hqs using fun c => Fetch.collect_got (hq c)
  obtain ⟨ks, hk, rfl⟩ := Fetch.collect_got hal
  have hks : ∀ k : Fin 12, ks k = [223 + k.val] := fun k => (memRead_got.mp (hk k)).2.2
  refine ⟨b, lane, hb, rfl, hlane, fun k => by rw [← hks k]; exact hk k, ?_⟩
  rw [funext hqs, funext hks]
  rfl

/-- A unit's value is a word of its column's format. -/
theorem column_got {p : Params} {s : State} {c : Fin 9} {f : Fin 10} {v : Word} {rs : List Nat}
    (h : column p s c f = .got v rs) :
    (columnUnits[f] = .temp → tempWordOk v) ∧ (columnUnits[f] = .hum → humWordOk v)
    ∧ (∀ g, columnUnits[f] = .tempTime g ∨ columnUnits[f] = .humTime g → tsWordOk v) := by
  have hts : ∀ (paired : Fetch Word) (n : Nat), tsmux p s paired n = .got v rs → tsWordOk v := by
    intro paired n hx
    unfold tsmux at hx
    cases paired with
    | failed f fs => simp at hx
    | got u us =>
      simp only at hx
      split at hx
      · obtain ⟨w, -, rfl⟩ := Fetch.map_got.mp hx
        exact decTS8_ok _ _
      · obtain ⟨rfl, -⟩ := Fetch.got.inj hx
        exact .inl rfl
  unfold column at h
  cases hu : columnUnits[f] with
  | temp =>
    rw [hu] at h
    obtain ⟨w, -, rfl⟩ := Fetch.map_got.mp h
    exact ⟨fun _ => decTemp_ok w, nofun, by simp⟩
  | hum =>
    rw [hu] at h
    obtain ⟨w, -, rfl⟩ := Fetch.map_got.mp h
    exact ⟨nofun, fun _ => decHum_ok w, by simp⟩
  | tempTime g => rw [hu] at h; exact ⟨nofun, nofun, fun _ _ => hts _ _ h⟩
  | humTime g => rw [hu] at h; exact ⟨nofun, nofun, fun _ _ => hts _ _ h⟩

/-- A timestamp unit gives a present time only where its paired unit's word is VALID (R167, R171). -/
theorem tsmux_gated {p : Params} {s : State} {paired : Fetch Word} {n : Nat} {u v : Word}
    {us rs : List Nat} (hu : paired = .got u us) (h : tsmux p s paired n = .got v rs) : pairOk u v := by
  subst hu
  intro hv
  by_contra hne
  simp only [tsmux, if_neg hne] at h
  exact hv (Fetch.got.inj h).1.symm

theorem pairOk_absent (u : Word) : pairOk u absentTs := fun h => absurd rfl h

/-- The lanes a full PARSE decodes. -/
theorem readFrame_laneOk {p : Params} {s : State} {fr : Frame} {rs : List Nat}
    (h : readFrame p s = .got fr rs) (c : Fin 9) : laneOk fr.out[c] := by
  obtain ⟨b, lane, -, -, hcol, -, rfl⟩ := readFrame_got h
  have o : ∀ f : Fin 10, _ := fun f => column_got (hcol c f)
  exact ⟨⟨(o 0).1 rfl, (o 1).1 rfl, (o 2).1 rfl⟩, ⟨(o 5).2.1 rfl, (o 6).2.1 rfl, (o 7).2.1 rfl⟩,
    ⟨(o 3).2.2 0 (.inl rfl), (o 4).2.2 1 (.inl rfl), (o 8).2.2 5 (.inr rfl), (o 9).2.2 6 (.inr rfl)⟩,
    tsmux_gated (hcol c 0) (hcol c 3), tsmux_gated (hcol c 1) (hcol c 4),
    tsmux_gated (hcol c 5) (hcol c 8), tsmux_gated (hcol c 6) (hcol c 9)⟩

/-- The lanes of the short frame, which are also those of reset. -/
theorem shortFrame_laneOk (c : Fin 9) : laneOk shortFrame.out[c] := by
  have h : shortFrame.out[c]
      = #v[0x00010000, 0x00010000, 0x00010000, 0, 0, 0x0001006E, 0x0001006E, 0x0001006E, 0, 0] := by
    simp [shortFrame]; rfl
  rw [h]
  exact ⟨⟨.inl rfl, .inl rfl, .inl rfl⟩, ⟨.inl rfl, .inl rfl, .inl rfl⟩,
    ⟨.inl rfl, .inl rfl, .inl rfl, .inl rfl⟩, pairOk_absent _, pairOk_absent _, pairOk_absent _, pairOk_absent _⟩

theorem shortFrame_out : shortFrame.out = State.reset.out := by decide

/-! ### NIB as a window of one nibble -/

theorem Fetch.collect_one_failed {α : Type} {m : Nat} (hm : m = 1) (g : Fin m → Fetch α) {f : Fault}
    (hf : ∀ j, g j = .failed f []) : Fetch.collect m g = .failed f [] := by
  subst hm
  simp [Fetch.collect, Fetch.both, hf]

theorem memRead_failed {s : State} {i : Nat} {f : Fault} {fs : List Fault} (h : memRead s i = .failed f fs) : fs = [] := by
  unfold memRead at h
  split at h
  · exact (Fetch.failed.inj h).2.symm
  · split at h
    · exact (Fetch.failed.inj h).2.symm
    · simp at h

theorem nib_eq_win (s : State) (n : Nat) (g : Nibble → Word) :
    (nib s n).map g = (win s n 1).map (fun w => g w[0]) := by
  have hsp : spanLen n 1 = 1 := by unfold spanLen; omega
  cases hm : memRead s (n / 2) with
  | got b rs =>
    obtain ⟨h1, h2, rfl⟩ := memRead_got.mp hm
    have hold : holdsWindow s n #v[nibbleOf b n] := by
      refine ⟨by unfold Config.bufCap at h1; omega, fun j => ?_⟩
      have hj : j = 0 := by omega
      subst hj
      simp [nibbleAt, h2]
    rw [win_of_holds (by omega) hold]
    simp [nib, hm, Fetch.map, windowReads, hsp]
  | failed f fs =>
    obtain rfl := memRead_failed hm
    have hspan : spanBytes s n 1 = .failed f [] := by
      refine Fetch.collect_one_failed hsp _ fun j => ?_
      have hj : j.val = 0 := by have := j.isLt; omega
      rw [hj]; exact hm
    simp [nib, hm, win, hspan, Fetch.map]

/-! ### A read depends only on the bytes it reads -/

theorem holdsWindow_agree {s s' : State} {n k : Nat} {w : Vector Nibble k} (h : holdsWindow s n w)
    (ha : ∀ i, inWindow n k i → Memory.read s'.fb i = Memory.read s.fb i) : holdsWindow s' n w := by
  refine ⟨h.1, fun j => ?_⟩
  have hj := j.isLt
  have he := ha ((n + j.val) / 2) ⟨by omega, by unfold windowTop; omega⟩
  unfold nibbleAt
  rw [he]
  exact h.2 j

/-- The window of an image, where the bytes it spans hold the image. -/
theorem holdsWindow_image {s : State} {image : Nat → Byte} {n k : Nat} (hn : n + k ≤ 512)
    (h : ∀ i, inWindow n k i → Memory.read s.fb i = some (image i)) :
    holdsWindow s n (imageWindow image n k) := by
  refine ⟨hn, fun j => ?_⟩
  have hj := j.isLt
  have he := h ((n + j.val) / 2) ⟨by omega, by unfold windowTop; omega⟩
  simp [nibbleAt, he, imageWindow]

theorem memRead_agree {s s' : State} {i : Nat} {b : Byte} {rs : List Nat} (h : memRead s i = .got b rs)
    (ha : ∀ j ∈ rs, Memory.read s'.fb j = Memory.read s.fb j) : memRead s' i = .got b rs := by
  obtain ⟨h1, h2, rfl⟩ := memRead_got.mp h
  exact memRead_got.mpr ⟨h1, by rw [ha i (List.mem_singleton.mpr rfl)]; exact h2, rfl⟩

theorem win_agree {s s' : State} {n k : Nat} {w : Vector Nibble k} {rs : List Nat} (hk : 0 < k)
    (h : win s n k = .got w rs) (ha : ∀ i ∈ rs, Memory.read s'.fb i = Memory.read s.fb i) :
    win s' n k = .got w rs := by
  obtain ⟨hold, rfl⟩ := holds_of_win hk h
  exact win_of_holds hk (holdsWindow_agree hold fun i hi => ha i ((mem_windowReads hk).mpr hi))

theorem map_win_agree {α : Type} {s s' : State} {n k : Nat} {g : Vector Nibble k → α} {v : α} {rs : List Nat} (hk : 0 < k)
    (h : (win s n k).map g = .got v rs) (ha : ∀ i ∈ rs, Memory.read s'.fb i = Memory.read s.fb i) :
    (win s' n k).map g = .got v rs := by
  obtain ⟨w, hw, rfl⟩ := Fetch.map_got.mp h
  exact Fetch.map_got.mpr ⟨w, win_agree hk hw ha, rfl⟩

theorem tsmux_agree {p : Params} {s s' : State} {r r' : Fetch Word} {n : Nat} {u v : Word} {us rs : List Nat}
    (hr : r = .got u us) (hr' : r' = .got u us) (h : tsmux p s r n = .got v rs)
    (ha : ∀ i ∈ rs, Memory.read s'.fb i = Memory.read s.fb i) : tsmux p s' r' n = .got v rs := by
  subst hr hr'
  unfold tsmux at h ⊢
  by_cases ht : tagField u = 0
  · simp only [if_pos ht] at h ⊢
    exact map_win_agree (by omega) h ha
  · simp only [if_neg ht] at h ⊢
    exact h

/-- The read phase of a full PARSE gives the same frame, with the same reads, in every state that agrees on the bytes it read. -/
theorem readFrame_agree {p : Params} {s s' : State} {fr : Frame} {rs : List Nat} (h : readFrame p s = .got fr rs)
    (ha : ∀ i ∈ rs, Memory.read s'.fb i = Memory.read s.fb i) : readFrame p s' = .got fr rs := by
  obtain ⟨b, lane, h4, hsq, hcol, hal, rfl⟩ := readFrame_got h
  have ha4 : ∀ i ∈ [4], Memory.read s'.fb i = Memory.read s.fb i := fun i hi => ha i (by simp [List.mem_singleton.mp hi])
  have hal' : ∀ k : Fin 12, memRead s' (223 + k.val) = .got fr.alarm[k] [223 + k.val] := fun k =>
    memRead_agree (hal k) fun i hi => ha i (by
      refine List.mem_append_right _ (List.mem_flatten.mpr ⟨_, List.mem_ofFn.mpr ⟨k, rfl⟩, hi⟩))
  have hlane : ∀ c f, ∀ i ∈ lane c f, Memory.read s'.fb i = Memory.read s.fb i := fun c f i hi => ha i (by
    refine List.mem_append_left _ (List.mem_append_right _ (List.mem_flatten.mpr ⟨_, List.mem_ofFn.mpr ⟨c, rfl⟩, ?_⟩))
    exact List.mem_flatten.mpr ⟨_, List.mem_ofFn.mpr ⟨f, rfl⟩, hi⟩)
  have hT : ∀ c f v q, tempUnit s (npos p.pos0 c f) = .got v q → (∀ i ∈ q, Memory.read s'.fb i = Memory.read s.fb i) →
      tempUnit s' (npos p.pos0 c f) = .got v q := fun c f v q hv hq => map_win_agree (by omega) hv hq
  have hH : ∀ c f v q, humUnit s (npos p.pos0 c f) = .got v q → (∀ i ∈ q, Memory.read s'.fb i = Memory.read s.fb i) →
      humUnit s' (npos p.pos0 c f) = .got v q := fun c f v q hv hq => map_win_agree (by omega) hv hq
  have hcol' : ∀ c f, column p s' c f = .got fr.out[c][f] (lane c f) := by
    intro c f
    match f with
    | 0 => exact hT c 0 _ _ (hcol c 0) (hlane c 0)
    | 1 => exact hT c 1 _ _ (hcol c 1) (hlane c 1)
    | 2 => exact hT c 2 _ _ (hcol c 2) (hlane c 2)
    | 3 => exact tsmux_agree (hcol c 0) (hT c 0 _ _ (hcol c 0) (hlane c 0)) (hcol c 3) (hlane c 3)
    | 4 => exact tsmux_agree (hcol c 1) (hT c 1 _ _ (hcol c 1) (hlane c 1)) (hcol c 4) (hlane c 4)
    | 5 => exact hH c 5 _ _ (hcol c 5) (hlane c 5)
    | 6 => exact hH c 6 _ _ (hcol c 6) (hlane c 6)
    | 7 => exact hH c 7 _ _ (hcol c 7) (hlane c 7)
    | 8 => exact tsmux_agree (hcol c 5) (hH c 5 _ _ (hcol c 5) (hlane c 5)) (hcol c 8) (hlane c 8)
    | 9 => exact tsmux_agree (hcol c 6) (hH c 6 _ _ (hcol c 6) (hlane c 6)) (hcol c 9) (hlane c 9)
  have hsigq : readSigq s' = .got fr.sigq [4] :=
    Fetch.map_got.mpr ⟨b, memRead_agree h4 ha4, hsq.symm⟩
  have hlanes : readLanes p s' = .got fr.out (List.ofFn fun c => (List.ofFn (lane c)).flatten).flatten := by
    unfold readLanes
    rw [Fetch.collect_of_got fun c => Fetch.collect_of_got (hcol' c)]
    congr 1
    apply Vector.ext; intro i hi
    rw [Vector.getElem_ofFn]
    apply Vector.ext; intro j hj
    rw [Vector.getElem_ofFn]; rfl
  have halarm : readAlarm s' = .got fr.alarm (List.ofFn fun k : Fin 12 => [223 + k.val]).flatten := by
    unfold readAlarm Config.alarmBase
    rw [Fetch.collect_of_got hal']
    congr 1
    apply Vector.ext; intro i hi
    rw [Vector.getElem_ofFn]; rfl
  unfold readFrame
  rw [hsigq, hlanes, halarm]
  rfl

end Sys2Proof.Machine
end

