-- ==== Sys2Proof/Laws/Decode.lean ====
section
/-! SUPPORT. The command word's fields as numbers, the fields of an assembled word, and when two words are equal. -/

namespace Sys2Proof

theorem opOf_toNat (v : Word) : (opOf v).toNat = v.toNat % 16 := by
  simp [opOf, BitVec.extractLsb'_toNat]

theorem hiOf_toNat (v : Word) : (hiOf v).toNat = v.toNat / 16 % 2 := by
  have h : hiOf v = decide (v.toNat / 16 % 2 = 1) := by
    simp [hiOf, BitVec.getLsbD, Nat.testBit_eq_decide_div_mod_eq]
  rw [h]
  by_cases h1 : v.toNat / 16 % 2 = 1
  · simp [h1]
  · simp only [h1, decide_false, Bool.toNat_false]; omega

theorem res0Of_toNat (v : Word) : (res0Of v).toNat = v.toNat / 32 % 8 := by
  simp [res0Of, BitVec.extractLsb'_toNat, Nat.shiftRight_eq_div_pow]

theorem byteOf_toNat (v : Word) : (byteOf v).toNat = v.toNat / 256 % 256 := by
  simp [byteOf, BitVec.extractLsb'_toNat, Nat.shiftRight_eq_div_pow]

theorem chOf_toNat (v : Word) : (chOf v).toNat = v.toNat / 65536 % 16 := by
  simp [chOf, BitVec.extractLsb'_toNat, Nat.shiftRight_eq_div_pow]

theorem res1Of_toNat (v : Word) : (res1Of v).toNat = v.toNat / 1048576 % 4096 := by
  simp [res1Of, BitVec.extractLsb'_toNat, Nat.shiftRight_eq_div_pow]

theorem res0Of_eq_zero (v : Word) : res0Of v = 0 ↔ v.toNat / 32 % 8 = 0 := by
  rw [← res0Of_toNat]; exact BitVec.toNat_inj.symm

theorem res1Of_eq_zero (v : Word) : res1Of v = 0 ↔ v.toNat / 1048576 % 4096 = 0 := by
  rw [← res1Of_toNat]; exact BitVec.toNat_inj.symm

theorem chOf_eq_zero (v : Word) : chOf v = 0 ↔ v.toNat / 65536 % 16 = 0 := by
  rw [← chOf_toNat]; exact BitVec.toNat_inj.symm

theorem byteOf_eq_zero (v : Word) : byteOf v = 0 ↔ v.toNat / 256 % 256 = 0 := by
  rw [← byteOf_toNat]; exact BitVec.toNat_inj.symm

theorem hiOf_eq_false (v : Word) : hiOf v = false ↔ v.toNat / 16 % 2 = 0 := by
  rw [← hiOf_toNat]; cases hiOf v <;> simp

/-- A word is the sum of its fields. -/
theorem word_fields (v : Word) :
    v.toNat = (opOf v).toNat + (hiOf v).toNat * 2 ^ 4 + (res0Of v).toNat * 2 ^ 5
      + (byteOf v).toNat * 2 ^ 8 + (chOf v).toNat * 2 ^ 16 + (res1Of v).toNat * 2 ^ 20 := by
  rw [opOf_toNat, hiOf_toNat, res0Of_toNat, byteOf_toNat, chOf_toNat, res1Of_toNat]
  have := v.isLt
  omega

/-- Words with equal fields are equal. -/
theorem word_ext {v w : Word} (h0 : opOf v = opOf w) (h1 : hiOf v = hiOf w)
    (h2 : res0Of v = res0Of w) (h3 : byteOf v = byteOf w) (h4 : chOf v = chOf w)
    (h5 : res1Of v = res1Of w) : v = w := by
  apply BitVec.eq_of_toNat_eq
  rw [word_fields v, word_fields w, h0, h1, h2, h3, h4, h5]

section Assembled

variable {op : Nat} (hop : op < 16) (hi : Bool) (byte : Byte) (ch : BitVec 4)
include hop

theorem assembleWord_toNat : (assembleWord op hi byte ch).toNat
    = op + hi.toNat * 2 ^ 4 + byte.toNat * 2 ^ 8 + ch.toNat * 2 ^ 16 := by
  have h1 := byte.isLt
  have h2 := ch.isLt
  have h3 : hi.toNat ≤ 1 := Bool.toNat_le hi
  unfold assembleWord
  rw [BitVec.toNat_ofNat]
  exact Nat.mod_eq_of_lt (by omega)

theorem opOf_assembleWord : (opOf (assembleWord op hi byte ch)).toNat = op := by
  rw [opOf_toNat, assembleWord_toNat hop]
  omega

theorem hiOf_assembleWord : hiOf (assembleWord op hi byte ch) = hi := by
  have h3 : hi.toNat ≤ 1 := Bool.toNat_le hi
  have h := hiOf_toNat (assembleWord op hi byte ch)
  rw [assembleWord_toNat hop] at h
  have h' : (hiOf (assembleWord op hi byte ch)).toNat = hi.toNat := by omega
  revert h'
  cases hiOf (assembleWord op hi byte ch) <;> cases hi <;> simp

theorem byteOf_assembleWord : byteOf (assembleWord op hi byte ch) = byte := by
  have h1 := byte.isLt
  have h3 : hi.toNat ≤ 1 := Bool.toNat_le hi
  apply BitVec.eq_of_toNat_eq
  rw [byteOf_toNat, assembleWord_toNat hop]
  omega

theorem chOf_assembleWord : chOf (assembleWord op hi byte ch) = ch := by
  have h1 := byte.isLt
  have h2 := ch.isLt
  have h3 : hi.toNat ≤ 1 := Bool.toNat_le hi
  apply BitVec.eq_of_toNat_eq
  rw [chOf_toNat, assembleWord_toNat hop]
  omega

theorem res0Of_assembleWord : res0Of (assembleWord op hi byte ch) = 0 := by
  have h3 : hi.toNat ≤ 1 := Bool.toNat_le hi
  rw [res0Of_eq_zero, assembleWord_toNat hop]
  omega

theorem res1Of_assembleWord : res1Of (assembleWord op hi byte ch) = 0 := by
  have h1 := byte.isLt
  have h2 := ch.isLt
  have h3 : hi.toNat ≤ 1 := Bool.toNat_le hi
  rw [res1Of_eq_zero, assembleWord_toNat hop]
  omega

end Assembled

/-- A word is its OP, HI, BYTE and CH put together, where its reserved fields are 0. -/
theorem eq_assembleWord {v : Word} (h0 : res0Of v = 0) (h1 : res1Of v = 0) :
    v = assembleWord (opOf v).toNat (hiOf v) (byteOf v) (chOf v) := by
  apply BitVec.eq_of_toNat_eq
  rw [assembleWord_toNat (opOf v).isLt, word_fields v, h0, h1]
  simp

/-- A window command's words by mask and match (R98): CH and the reserved fields are 0 and OP is the match. -/
theorem windowMask_iff (v : Word) (op : Fin 16) :
    v &&& 0xFFFF00EF = BitVec.ofNat 32 op.val ↔
      (opOf v).toNat = op.val ∧ res0Of v = 0 ∧ chOf v = 0 ∧ res1Of v = 0 := by
  constructor
  · intro h
    have field : ∀ lo len : Nat, v.extractLsb' lo len &&& (0xFFFF00EF#32).extractLsb' lo len
        = (BitVec.ofNat 32 op.val).extractLsb' lo len := by
      intro lo len
      rw [← BitVec.extractLsb'_and]
      exact congrArg (BitVec.extractLsb' lo len) h
    have e0 : opOf v &&& 15#4 = (BitVec.ofNat 32 op.val).extractLsb' 0 4 := field 0 4
    have e1 : res0Of v &&& 7#3 = (BitVec.ofNat 32 op.val).extractLsb' 5 3 := field 5 3
    have e2 : chOf v &&& 15#4 = (BitVec.ofNat 32 op.val).extractLsb' 16 4 := field 16 4
    have e3 : res1Of v &&& 4095#12 = (BitVec.ofNat 32 op.val).extractLsb' 20 12 := field 20 12
    have low : ∀ op : Fin 16, ((BitVec.ofNat 32 op.val).extractLsb' 0 4).toNat = op.val
        ∧ (BitVec.ofNat 32 op.val).extractLsb' 5 3 = 0#3
        ∧ (BitVec.ofNat 32 op.val).extractLsb' 16 4 = 0#4
        ∧ (BitVec.ofNat 32 op.val).extractLsb' 20 12 = 0#12 := by decide
    obtain ⟨l0, l1, l2, l3⟩ := low op
    have a0 : opOf v &&& 15#4 = opOf v := BitVec.and_allOnes
    have a1 : res0Of v &&& 7#3 = res0Of v := BitVec.and_allOnes
    have a2 : chOf v &&& 15#4 = chOf v := BitVec.and_allOnes
    have a3 : res1Of v &&& 4095#12 = res1Of v := BitVec.and_allOnes
    rw [a0] at e0; rw [a1, l1] at e1; rw [a2, l2] at e2; rw [a3, l3] at e3
    exact ⟨by rw [e0, l0], e1, e2, e3⟩
  · rintro ⟨h0, h1, h2, h3⟩
    rw [eq_assembleWord h1 h3, h0, h2]
    generalize hiOf v = hi
    generalize byteOf v = byte
    have key : ∀ (op : Fin 16) (hi : Bool) (byte : BitVec 8),
        assembleWord op.val hi byte 0 &&& 0xFFFF00EF = BitVec.ofNat 32 op.val := by
      decide +kernel
    exact key op hi byte

end Sys2Proof
end

