-- ==== Sys2Proof/Laws/Memory.lean ====
section
/-! SUPPORT. The frame buffer's laws: a read after a write, the canonical form, and that equal contents are equal lists. -/

namespace Sys2Proof.Machine

theorem Memory.read_write_self (m : Memory) (i : Nat) (v : Byte) :
    Memory.read (Memory.write m i v) i = some v := by
  induction m with
  | nil => simp [Memory.write, Memory.read]
  | cons c m ih =>
    obtain ⟨a, b⟩ := c
    by_cases h : a = i
    · simp [Memory.write, Memory.read, h]
    · by_cases hlt : i < a <;> simp [Memory.write, Memory.read, h, hlt, ih]

theorem Memory.read_write_other (m : Memory) {i j : Nat} (v : Byte) (hij : i ≠ j) :
    Memory.read (Memory.write m i v) j = Memory.read m j := by
  induction m with
  | nil => simp [Memory.write, Memory.read, hij]
  | cons c m ih =>
    obtain ⟨a, b⟩ := c
    by_cases h : a = i
    · subst h; simp [Memory.write, Memory.read, hij]
    · by_cases hlt : i < a
      · simp [Memory.write, Memory.read, h, hlt, hij]
      · by_cases haj : a = j
        · subst haj; simp [Memory.write, Memory.read, h, hlt]
        · simp [Memory.write, Memory.read, h, hlt, haj, ih]

/-- The read of one byte after a write, in one equation. -/
theorem Memory.read_write (m : Memory) (i j : Nat) (v : Byte) :
    Memory.read (Memory.write m i v) j = if i = j then some v else Memory.read m j := by
  by_cases h : i = j
  · subst h; simp [Memory.read_write_self]
  · simp [h, Memory.read_write_other m v h]

theorem Memory.risingFrom_mono {lo hi : Nat} (h : lo ≤ hi) {m : Memory}
    (hm : Memory.risingFrom hi m = true) : Memory.risingFrom lo m = true := by
  cases m with
  | nil => rfl
  | cons c m =>
    obtain ⟨a, b⟩ := c
    simp only [Memory.risingFrom, Bool.and_eq_true, decide_eq_true_eq] at hm ⊢
    exact ⟨⟨by omega, hm.1.2⟩, hm.2⟩

theorem Memory.risingFrom_write {m : Memory} {lo i : Nat} (v : Byte) (hlo : lo ≤ i)
    (hi : i < Config.bufCap) (hm : Memory.risingFrom lo m = true) :
    Memory.risingFrom lo (Memory.write m i v) = true := by
  induction m generalizing lo with
  | nil => simp [Memory.write, Memory.risingFrom, hlo, hi]
  | cons c m ih =>
    obtain ⟨a, b⟩ := c
    simp only [Memory.risingFrom, Bool.and_eq_true, decide_eq_true_eq] at hm
    by_cases h : a = i
    · subst h
      simp [Memory.write, Memory.risingFrom, hm.1.1, hm.1.2, hm.2]
    · by_cases hlt : i < a
      · have : i + 1 ≤ a := hlt
        simp [Memory.write, Memory.risingFrom, h, hlt, hlo, hi, hm.1.2, hm.2]
      · have := ih (lo := a + 1) (by omega) hm.2
        simp [Memory.write, Memory.risingFrom, h, hlt, hm.1.1, hm.1.2, this]

/-- A write within the buffer keeps the canonical form. -/
theorem Memory.wf_write {m : Memory} {i : Nat} (v : Byte) (hi : i < Config.bufCap)
    (hm : Memory.wf m = true) : Memory.wf (Memory.write m i v) = true :=
  Memory.risingFrom_write v (Nat.zero_le i) hi hm

theorem Memory.wf_nil : Memory.wf [] = true := rfl

theorem Memory.read_below {m : Memory} {lo i : Nat} (hm : Memory.risingFrom lo m = true)
    (h : i < lo) : Memory.read m i = none := by
  induction m generalizing lo with
  | nil => rfl
  | cons c m ih =>
    obtain ⟨a, b⟩ := c
    simp only [Memory.risingFrom, Bool.and_eq_true, decide_eq_true_eq] at hm
    have ha : a ≠ i := by omega
    simp [Memory.read, ha, ih hm.2 (by omega)]

/-- In canonical form no byte beyond the capacity is listed (R70). -/
theorem Memory.read_beyond {m : Memory} {i : Nat} (hm : Memory.wf m = true)
    (h : Config.bufCap ≤ i) : Memory.read m i = none := by
  have key : ∀ (m : Memory) (lo : Nat), Memory.risingFrom lo m = true → Memory.read m i = none := by
    intro m
    induction m with
    | nil => intro _ _; rfl
    | cons c m ih =>
      obtain ⟨a, b⟩ := c
      intro lo hm
      simp only [Memory.risingFrom, Bool.and_eq_true, decide_eq_true_eq] at hm
      have ha : a ≠ i := by omega
      simp [Memory.read, ha, ih _ hm.2]
  exact key m 0 hm

theorem Memory.ext_from {m m' : Memory} {lo : Nat} (hm : Memory.risingFrom lo m = true)
    (hm' : Memory.risingFrom lo m' = true) (h : ∀ i, Memory.read m i = Memory.read m' i) :
    m = m' := by
  induction m generalizing m' lo with
  | nil =>
    cases m' with
    | nil => rfl
    | cons c m' => obtain ⟨a, b⟩ := c; simpa [Memory.read] using h a
  | cons c m ih =>
    obtain ⟨a, b⟩ := c
    simp only [Memory.risingFrom, Bool.and_eq_true, decide_eq_true_eq] at hm
    cases m' with
    | nil => simpa [Memory.read] using h a
    | cons c' m' =>
      obtain ⟨a', b'⟩ := c'
      simp only [Memory.risingFrom, Bool.and_eq_true, decide_eq_true_eq] at hm'
      have haa : a = a' := by
        by_contra hne
        rcases Nat.lt_or_gt_of_ne hne with hlt | hgt
        · have h1 := h a
          have h2 : Memory.read m' a = none := Memory.read_below hm'.2 (by omega)
          have h3 : a' ≠ a := by omega
          simp [Memory.read, h3, h2] at h1
        · have h1 := h a'
          have h2 : Memory.read m a' = none := Memory.read_below hm.2 (by omega)
          simp [Memory.read, hne, h2] at h1
      subst haa
      have hb : b = b' := by simpa [Memory.read] using h a
      subst hb
      have htail : ∀ i, Memory.read m i = Memory.read m' i := by
        intro i
        by_cases hi : a = i
        · subst hi
          rw [Memory.read_below hm.2 (by omega), Memory.read_below hm'.2 (by omega)]
        · simpa [Memory.read, hi] using h i
      rw [ih hm.2 hm'.2 htail]

/-- Canonical memories with the same contents are the same list. -/
theorem Memory.ext {m m' : Memory} (hm : Memory.wf m = true) (hm' : Memory.wf m' = true)
    (h : ∀ i, Memory.read m i = Memory.read m' i) : m = m' :=
  Memory.ext_from hm hm' h

end Sys2Proof.Machine
end

