-- ==== Sys2Proof/Laws/PerInstr.lean ====
section
/-! SUPPORT. A law of every instruction as syntax, one lemma for each constructor: its encoded word is a word of its own row of
the opcode map, that is, the row's fixed bits have the row's values (30_encoding.md R97, R98). -/

namespace Sys2Proof.Laws.TableRow

open Sys2Proof

/-- The encoded word agrees with the mask and the match of the instruction's row. -/
def Statement (i : Instr) : Prop := encode i &&& i.mnemonic.mask = i.mnemonic.matchBits

/-- A window form's word has its row's fixed bits, whatever its operands. -/
theorem window_row (op : Fin 16) (byte : Byte) (hi : Bool) :
    assembleWord op.val hi byte 0 &&& 0xFFFF00EF = BitVec.ofNat 32 op.val :=
  (windowMask_iff _ op).mpr
    ⟨opOf_assembleWord op.isLt hi byte 0, res0Of_assembleWord op.isLt hi byte 0, chOf_assembleWord op.isLt hi byte 0,
      res1Of_assembleWord op.isLt hi byte 0⟩

theorem nib (byte : Byte) (hi : Bool) : Statement (.nib byte hi) := window_row 0x1 byte hi
theorem bcd2 (byte : Byte) (hi : Bool) : Statement (.bcd2 byte hi) := window_row 0x2 byte hi
theorem ovf2 (byte : Byte) (hi : Bool) : Statement (.ovf2 byte hi) := window_row 0x3 byte hi
theorem err2 (byte : Byte) (hi : Bool) : Statement (.err2 byte hi) := window_row 0x4 byte hi
theorem ovf3 (byte : Byte) (hi : Bool) : Statement (.ovf3 byte hi) := window_row 0x5 byte hi
theorem err3 (byte : Byte) (hi : Bool) : Statement (.err3 byte hi) := window_row 0x6 byte hi
theorem temp (byte : Byte) (hi : Bool) : Statement (.temp byte hi) := window_row 0x7 byte hi
theorem hum (byte : Byte) (hi : Bool) : Statement (.hum byte hi) := window_row 0x8 byte hi
theorem ts8 (byte : Byte) (hi : Bool) : Statement (.ts8 byte hi) := window_row 0x9 byte hi
theorem ts10 (byte : Byte) (hi : Bool) : Statement (.ts10 byte hi) := window_row 0xA byte hi
theorem parse : Statement .parse := by unfold Statement; decide
theorem batt (ch : BitVec 4) : Statement (.batt ch) := by unfold Statement; revert ch; decide

end Sys2Proof.Laws.TableRow
end

