-- ==== Sys2Proof/Laws/State.lean ====
section
/-! SUPPORT. One lemma for each field of State under each named update, so that no proof unfolds a record update. -/

namespace Sys2Proof.Machine

/-! ### completeLegal -/

@[simp] theorem completeLegal_cmd (s : State) (o : Bool) : (s.completeLegal o).cmd = s.cmd := rfl
@[simp] theorem completeLegal_status (s : State) (o : Bool) : (s.completeLegal o).status = { s.status with ill := false, oor := o, done := true } := rfl
@[simp] theorem completeLegal_len (s : State) (o : Bool) : (s.completeLegal o).len = s.len := rfl
@[simp] theorem completeLegal_captIn (s : State) (o : Bool) : (s.completeLegal o).captIn = s.captIn := rfl
@[simp] theorem completeLegal_result (s : State) (o : Bool) : (s.completeLegal o).result = s.result := rfl
@[simp] theorem completeLegal_sigq (s : State) (o : Bool) : (s.completeLegal o).sigq = s.sigq := rfl
@[simp] theorem completeLegal_capt (s : State) (o : Bool) : (s.completeLegal o).capt = s.capt := rfl
@[simp] theorem completeLegal_alarm (s : State) (o : Bool) : (s.completeLegal o).alarm = s.alarm := rfl
@[simp] theorem completeLegal_out (s : State) (o : Bool) : (s.completeLegal o).out = s.out := rfl
@[simp] theorem completeLegal_latchOor (s : State) (o : Bool) : (s.completeLegal o).latchOor = o := rfl
@[simp] theorem completeLegal_fb (s : State) (o : Bool) : (s.completeLegal o).fb = s.fb := rfl
@[simp] theorem completeLegal_pending (s : State) (o : Bool) : (s.completeLegal o).pending = s.pending := rfl
@[simp] theorem completeLegal_answers (s : State) (o : Bool) : (s.completeLegal o).answers = s.answers := rfl
@[simp] theorem completeLegal_accessCount (s : State) (o : Bool) : (s.completeLegal o).accessCount = s.accessCount := rfl

/-! ### completeIllegal -/

@[simp] theorem completeIllegal_cmd (s : State) : (s.completeIllegal).cmd = s.cmd := rfl
@[simp] theorem completeIllegal_status (s : State) : (s.completeIllegal).status = { s.status with ill := true, oor := false, done := true } := rfl
@[simp] theorem completeIllegal_len (s : State) : (s.completeIllegal).len = s.len := rfl
@[simp] theorem completeIllegal_captIn (s : State) : (s.completeIllegal).captIn = s.captIn := rfl
@[simp] theorem completeIllegal_result (s : State) : (s.completeIllegal).result = s.result := rfl
@[simp] theorem completeIllegal_sigq (s : State) : (s.completeIllegal).sigq = s.sigq := rfl
@[simp] theorem completeIllegal_capt (s : State) : (s.completeIllegal).capt = s.capt := rfl
@[simp] theorem completeIllegal_alarm (s : State) : (s.completeIllegal).alarm = s.alarm := rfl
@[simp] theorem completeIllegal_out (s : State) : (s.completeIllegal).out = s.out := rfl
@[simp] theorem completeIllegal_latchOor (s : State) : (s.completeIllegal).latchOor = false := rfl
@[simp] theorem completeIllegal_fb (s : State) : (s.completeIllegal).fb = s.fb := rfl
@[simp] theorem completeIllegal_pending (s : State) : (s.completeIllegal).pending = s.pending := rfl
@[simp] theorem completeIllegal_answers (s : State) : (s.completeIllegal).answers = s.answers := rfl
@[simp] theorem completeIllegal_accessCount (s : State) : (s.completeIllegal).accessCount = s.accessCount := rfl

/-! ### markParsed -/

@[simp] theorem markParsed_cmd (s : State) (b : Bool) : (s.markParsed b).cmd = s.cmd := rfl
@[simp] theorem markParsed_status (s : State) (b : Bool) : (s.markParsed b).status = { s.status with short := b, parsed := true } := rfl
@[simp] theorem markParsed_len (s : State) (b : Bool) : (s.markParsed b).len = s.len := rfl
@[simp] theorem markParsed_captIn (s : State) (b : Bool) : (s.markParsed b).captIn = s.captIn := rfl
@[simp] theorem markParsed_result (s : State) (b : Bool) : (s.markParsed b).result = s.result := rfl
@[simp] theorem markParsed_sigq (s : State) (b : Bool) : (s.markParsed b).sigq = s.sigq := rfl
@[simp] theorem markParsed_capt (s : State) (b : Bool) : (s.markParsed b).capt = s.capt := rfl
@[simp] theorem markParsed_alarm (s : State) (b : Bool) : (s.markParsed b).alarm = s.alarm := rfl
@[simp] theorem markParsed_out (s : State) (b : Bool) : (s.markParsed b).out = s.out := rfl
@[simp] theorem markParsed_latchOor (s : State) (b : Bool) : (s.markParsed b).latchOor = s.latchOor := rfl
@[simp] theorem markParsed_fb (s : State) (b : Bool) : (s.markParsed b).fb = s.fb := rfl
@[simp] theorem markParsed_pending (s : State) (b : Bool) : (s.markParsed b).pending = s.pending := rfl
@[simp] theorem markParsed_answers (s : State) (b : Bool) : (s.markParsed b).answers = s.answers := rfl
@[simp] theorem markParsed_accessCount (s : State) (b : Bool) : (s.markParsed b).accessCount = s.accessCount := rfl

/-! ### issue -/

@[simp] theorem issue_cmd (s : State) (rest : List HostOp) : (s.issue rest).cmd = s.cmd := rfl
@[simp] theorem issue_status (s : State) (rest : List HostOp) : (s.issue rest).status = s.status := rfl
@[simp] theorem issue_len (s : State) (rest : List HostOp) : (s.issue rest).len = s.len := rfl
@[simp] theorem issue_captIn (s : State) (rest : List HostOp) : (s.issue rest).captIn = s.captIn := rfl
@[simp] theorem issue_result (s : State) (rest : List HostOp) : (s.issue rest).result = s.result := rfl
@[simp] theorem issue_sigq (s : State) (rest : List HostOp) : (s.issue rest).sigq = s.sigq := rfl
@[simp] theorem issue_capt (s : State) (rest : List HostOp) : (s.issue rest).capt = s.capt := rfl
@[simp] theorem issue_alarm (s : State) (rest : List HostOp) : (s.issue rest).alarm = s.alarm := rfl
@[simp] theorem issue_out (s : State) (rest : List HostOp) : (s.issue rest).out = s.out := rfl
@[simp] theorem issue_latchOor (s : State) (rest : List HostOp) : (s.issue rest).latchOor = s.latchOor := rfl
@[simp] theorem issue_fb (s : State) (rest : List HostOp) : (s.issue rest).fb = s.fb := rfl
@[simp] theorem issue_pending (s : State) (rest : List HostOp) : (s.issue rest).pending = rest := rfl
@[simp] theorem issue_answers (s : State) (rest : List HostOp) : (s.issue rest).answers = s.answers := rfl
@[simp] theorem issue_accessCount (s : State) (rest : List HostOp) : (s.issue rest).accessCount = s.accessCount + 1 := rfl

/-! ### withFetchWord -/

@[simp] theorem withFetchWord_cmd (s : State) (nbits w : Nat) : (s.withFetchWord nbits w).cmd = s.cmd := rfl
@[simp] theorem withFetchWord_status (s : State) (nbits w : Nat) : (s.withFetchWord nbits w).status = s.status := rfl
@[simp] theorem withFetchWord_len (s : State) (nbits w : Nat) : (s.withFetchWord nbits w).len = s.len := rfl
@[simp] theorem withFetchWord_captIn (s : State) (nbits w : Nat) : (s.withFetchWord nbits w).captIn = s.captIn := rfl
@[simp] theorem withFetchWord_result (s : State) (nbits w : Nat) : (s.withFetchWord nbits w).result = s.result := rfl
@[simp] theorem withFetchWord_sigq (s : State) (nbits w : Nat) : (s.withFetchWord nbits w).sigq = s.sigq := rfl
@[simp] theorem withFetchWord_capt (s : State) (nbits w : Nat) : (s.withFetchWord nbits w).capt = s.capt := rfl
@[simp] theorem withFetchWord_alarm (s : State) (nbits w : Nat) : (s.withFetchWord nbits w).alarm = s.alarm := rfl
@[simp] theorem withFetchWord_out (s : State) (nbits w : Nat) : (s.withFetchWord nbits w).out = s.out := rfl
@[simp] theorem withFetchWord_latchOor (s : State) (nbits w : Nat) : (s.withFetchWord nbits w).latchOor = s.latchOor := rfl
@[simp] theorem withFetchWord_fb (s : State) (nbits w : Nat) : (s.withFetchWord nbits w).fb = s.fb := rfl
@[simp] theorem withFetchWord_pending (s : State) (nbits w : Nat) : (s.withFetchWord nbits w).pending = .hwr 0x00 (BitVec.ofNat 32 (w % 2 ^ nbits)) :: s.pending := rfl
@[simp] theorem withFetchWord_answers (s : State) (nbits w : Nat) : (s.withFetchWord nbits w).answers = s.answers := rfl
@[simp] theorem withFetchWord_accessCount (s : State) (nbits w : Nat) : (s.withFetchWord nbits w).accessCount = s.accessCount := rfl

/-! ### commitFrame -/

@[simp] theorem commitFrame_cmd (b : Bool) (s : State) (fr : Frame) : (commitFrame b s fr).cmd = s.cmd := rfl
@[simp] theorem commitFrame_status (b : Bool) (s : State) (fr : Frame) : (commitFrame b s fr).status = { s.status with short := b, parsed := true } := rfl
@[simp] theorem commitFrame_len (b : Bool) (s : State) (fr : Frame) : (commitFrame b s fr).len = s.len := rfl
@[simp] theorem commitFrame_captIn (b : Bool) (s : State) (fr : Frame) : (commitFrame b s fr).captIn = s.captIn := rfl
@[simp] theorem commitFrame_result (b : Bool) (s : State) (fr : Frame) : (commitFrame b s fr).result = s.result := rfl
@[simp] theorem commitFrame_sigq (b : Bool) (s : State) (fr : Frame) : (commitFrame b s fr).sigq = fr.sigq := rfl
@[simp] theorem commitFrame_capt (b : Bool) (s : State) (fr : Frame) : (commitFrame b s fr).capt = s.captIn := rfl
@[simp] theorem commitFrame_alarm (b : Bool) (s : State) (fr : Frame) : (commitFrame b s fr).alarm = fr.alarm := rfl
@[simp] theorem commitFrame_out (b : Bool) (s : State) (fr : Frame) : (commitFrame b s fr).out = fr.out := rfl
@[simp] theorem commitFrame_latchOor (b : Bool) (s : State) (fr : Frame) : (commitFrame b s fr).latchOor = s.latchOor := rfl
@[simp] theorem commitFrame_fb (b : Bool) (s : State) (fr : Frame) : (commitFrame b s fr).fb = s.fb := rfl
@[simp] theorem commitFrame_pending (b : Bool) (s : State) (fr : Frame) : (commitFrame b s fr).pending = s.pending := rfl
@[simp] theorem commitFrame_answers (b : Bool) (s : State) (fr : Frame) : (commitFrame b s fr).answers = s.answers := rfl
@[simp] theorem commitFrame_accessCount (b : Bool) (s : State) (fr : Frame) : (commitFrame b s fr).accessCount = s.accessCount := rfl

/-! ### resetEvent -/

@[simp] theorem resetEvent_cmd (s : State) : (resetEvent s).cmd = State.reset.cmd := rfl
@[simp] theorem resetEvent_status (s : State) : (resetEvent s).status = State.reset.status := rfl
@[simp] theorem resetEvent_len (s : State) : (resetEvent s).len = State.reset.len := rfl
@[simp] theorem resetEvent_captIn (s : State) : (resetEvent s).captIn = State.reset.captIn := rfl
@[simp] theorem resetEvent_result (s : State) : (resetEvent s).result = State.reset.result := rfl
@[simp] theorem resetEvent_sigq (s : State) : (resetEvent s).sigq = State.reset.sigq := rfl
@[simp] theorem resetEvent_capt (s : State) : (resetEvent s).capt = State.reset.capt := rfl
@[simp] theorem resetEvent_alarm (s : State) : (resetEvent s).alarm = State.reset.alarm := rfl
@[simp] theorem resetEvent_out (s : State) : (resetEvent s).out = State.reset.out := rfl
@[simp] theorem resetEvent_latchOor (s : State) : (resetEvent s).latchOor = State.reset.latchOor := rfl
@[simp] theorem resetEvent_fb (s : State) : (resetEvent s).fb = State.reset.fb := rfl
@[simp] theorem resetEvent_pending (s : State) : (resetEvent s).pending = s.pending := rfl
@[simp] theorem resetEvent_answers (s : State) : (resetEvent s).answers = s.answers := rfl
@[simp] theorem resetEvent_accessCount (s : State) : (resetEvent s).accessCount = s.accessCount := rfl

end Sys2Proof.Machine
end

