-- ==== Sys2Proof/Laws/Step.lean ====
section
/-! SUPPORT. What one step can do, said once: an inversion of `step` over the host's accesses. -/

namespace Sys2Proof.Machine

/-- What a step that answers next did to the state `s`, whose first pending access is `op` (the state `u` is `s` with the
access taken up). -/
inductive Did (u : State) : HostOp → State → Prop where
  | fwr (i : BitVec 8) (v : Byte) : Did u (.fwr i v) { u with fb := Memory.write u.fb i.toNat v }
  | frd (i : BitVec 8) (b : Byte) (h : Memory.read u.fb i.toNat = some b) :
      Did u (.frd i) { u with answers := u.answers ++ [.fbByte i b] }
  | command (v : Word) (i : Instr) (t : State) (hd : decode v = .ok i)
      (h : exec i { u with cmd := v } = .next t) : Did u (.hwr 0x00 v) t
  | illegal (v : Word) (e : Reject) (hd : decode v = .error e) :
      Did u (.hwr 0x00 v) (({ u with cmd := v } : State).completeIllegal)
  | len (v : Word) : Did u (.hwr 0x02 v) { u with len := clampLen v }
  | captIn (v : Word) : Did u (.hwr 0x03 v) { u with captIn := v }
  | ignored (a : BitVec 8) (v : Word) (h0 : a ≠ 0x00) (h2 : a ≠ 0x02) (h3 : a ≠ 0x03) :
      Did u (.hwr a v) u
  | hrd (a : BitVec 8) : Did u (.hrd a) { u with answers := u.answers ++ [.regWord a (readRegister u a)] }
  | reset : Did u .reset (resetEvent u)

theorem toNat_eq_iff (a : BitVec 8) (n : Nat) (hn : n < 256) : a.toNat = n ↔ a = BitVec.ofNat 8 n := by
  constructor
  · intro h; apply BitVec.eq_of_toNat_eq; rw [h, BitVec.toNat_ofNat, Nat.mod_eq_of_lt (by omega)]
  · rintro rfl; rw [BitVec.toNat_ofNat, Nat.mod_eq_of_lt (by omega)]

theorem writeRegister_cmd (v : Word) (s : State) : writeRegister 0x00 v s = commandStep v s := rfl
theorem writeRegister_len (v : Word) (s : State) :
    writeRegister 0x02 v s = .next { s with len := clampLen v } := rfl
theorem writeRegister_captIn (v : Word) (s : State) :
    writeRegister 0x03 v s = .next { s with captIn := v } := rfl

/-- Writes to read-only and reserved registers do nothing (R30, R31). -/
theorem writeRegister_other {a : BitVec 8} (h0 : a ≠ 0x00) (h2 : a ≠ 0x02) (h3 : a ≠ 0x03) (v : Word)
    (s : State) : writeRegister a v s = .next s := by
  have n0 : a.toNat ≠ 0 := fun h => h0 ((toNat_eq_iff a 0 (by omega)).mp h)
  have n2 : a.toNat ≠ 2 := fun h => h2 ((toNat_eq_iff a 2 (by omega)).mp h)
  have n3 : a.toNat ≠ 3 := fun h => h3 ((toNat_eq_iff a 3 (by omega)).mp h)
  unfold writeRegister
  split
  · exact absurd ‹_› n0
  · exact absurd ‹_› n2
  · exact absurd ‹_› n3
  · rfl

/-- The step's inversion. -/
theorem step_next {s t : State} (h : step s = .next t) :
    (s.pending = [] ∧ t = s) ∨ ∃ op rest, s.pending = op :: rest ∧ Did (s.issue rest) op t := by
  unfold step at h
  cases hp : s.pending with
  | nil => rw [hp] at h; exact .inl ⟨rfl, (Host.Outcome.next.inj h).symm⟩
  | cons op rest =>
    rw [hp] at h
    refine .inr ⟨op, rest, rfl, ?_⟩
    cases op with
    | fwr i v => obtain rfl := Host.Outcome.next.inj h; exact .fwr i v
    | frd i =>
      simp only [hostAccess, hostFbRead] at h
      cases hr : Memory.read (s.issue rest).fb i.toNat with
      | none => rw [hr] at h; simp at h
      | some b => rw [hr] at h; obtain rfl := Host.Outcome.next.inj h; exact .frd i b hr
    | hrd a => obtain rfl := Host.Outcome.next.inj h; exact .hrd a
    | reset => obtain rfl := Host.Outcome.next.inj h; exact .reset
    | hwr a v =>
      simp only [hostAccess] at h
      by_cases h0 : a = 0x00
      · subst h0
        rw [writeRegister_cmd, commandStep] at h
        cases hd : decode v with
        | ok i => rw [hd] at h; exact .command v i t hd h
        | error e => rw [hd] at h; obtain rfl := Host.Outcome.next.inj h; exact .illegal v e hd
      · by_cases h2 : a = 0x02
        · subst h2; obtain rfl := Host.Outcome.next.inj h; exact .len v
        · by_cases h3 : a = 0x03
          · subst h3; obtain rfl := Host.Outcome.next.inj h; exact .captIn v
          · rw [writeRegister_other h0 h2 h3] at h
            obtain rfl := Host.Outcome.next.inj h
            exact .ignored a v h0 h2 h3

theorem clampLen_toNat (v : Word) : (clampLen v).toNat = min v.toNat 256 := by
  unfold clampLen Config.bufCap
  rw [BitVec.toNat_ofNat]
  omega

end Sys2Proof.Machine
end

