-- ==== Sys2Proof/Tests/Slice0.lean ====
section
/-! SUPPORT. Small tests with the spec's expected results (95_test_vectors.md, file and part named at each group), and for every
obligation with hypotheses a witness that meets them. -/

namespace Sys2Proof.Tests

open Sys2Proof Sys2Proof.Machine Sys2Proof.Rules

/-! ### Helpers -/

/-- A block after reset with this LEN and these bytes written. -/
def block (len : BitVec 9) (bytes : Memory) : State := { State.reset with len := len, fb := bytes }

/-- A block after reset with LEN 256 and all 256 bytes written with `v`. -/
def filled (v : Byte) : State := block 256 ((List.range 256).map fun i => (i, v))

/-- RESULT and the STATUS word after a step that completes. -/
def seen (r : Host.Outcome State Fault Refusal) : Option (Word × Word) :=
  match r with
  | .next t => some (t.result, t.status.toWord)
  | .fault _ => none
  | .refused _ => none

/-- The fault of a step that faults. -/
def faulted (r : Host.Outcome State Fault Refusal) : Option Fault :=
  match r with
  | .next _ => none
  | .fault f => some f
  | .refused _ => none

/-- One register after a step that completes. -/
def register (r : Host.Outcome State Fault Refusal) (a : RegName) : Option Word :=
  match r with
  | .next t => some (readRegister t a.address)
  | .fault _ => none
  | .refused _ => none

/-- The example parameters of 95_test_vectors.md: POS0_EX, and the pattern of its error-pattern row. -/
def exParams : Params where
  pos0 := { hi0 := true, col1 := 55, col2 := 58, col3 := 61, col4 := 69, col5 := 77, col6 := 79, col7 := 81, col8 := 83, col9 := 91 }
  ts8ErrPattern := #v[2, 4, 3, 1, 5, 0, 3, 4]
  baseBattBit := 7

/-! ### WellFormed: the one check, refused and met -/

theorem test_wellFormed_refuses_channel_9 : (Instr.batt 9).wellFormed = false := by decide
theorem test_wellFormed_refuses_channel_15 : (Instr.batt 15).wellFormed = false := by decide
theorem test_wellFormed_takes_channel_8 : (Instr.batt 8).wellFormed = true := by decide

/-! ### Decoding: words of 95_test_vectors.md parts 1 and 2 -/

theorem test_decode_nib : decode 0x00000A11 = .ok (.nib 10 true) := by decide
theorem test_decode_bcd2 : decode 0x0000FF02 = .ok (.bcd2 255 false) := by decide
theorem test_decode_ovf2 : decode 0x00000C13 = .ok (.ovf2 12 true) := by decide
theorem test_decode_err2 : decode 0x00000B14 = .ok (.err2 11 true) := by decide
theorem test_decode_ovf3 : decode 0x00001405 = .ok (.ovf3 20 false) := by decide
theorem test_decode_err3 : decode 0x00001E16 = .ok (.err3 30 true) := by decide
theorem test_decode_temp : decode 0x00002817 = .ok (.temp 40 true) := by decide
theorem test_decode_hum : decode 0x00003908 = .ok (.hum 57 false) := by decide
theorem test_decode_ts8 : decode 0x00006409 = .ok (.ts8 100 false) := by decide
theorem test_decode_ts10 : decode 0x00006E1A = .ok (.ts10 110 true) := by decide
theorem test_decode_parse : decode 0x0000000B = .ok .parse := by decide
theorem test_decode_batt : decode 0x0008000C = .ok (.batt 8) := by decide

/-- 95 part 2.8: every illegal word there is rejected, by its reason. -/
theorem test_decode_illegal :
    decode 0x00000000 = .error (.reservedOp 0) ∧ decode 0x0000000D = .error (.reservedOp 13)
    ∧ decode 0x0000000F = .error (.reservedOp 15) ∧ decode 0x00000021 = .error .reservedBitSet
    ∧ decode 0x00100001 = .error .reservedBitSet ∧ decode 0x80000007 = .error .reservedBitSet
    ∧ decode 0x00010001 = .error .unusedFieldSet ∧ decode 0x0000001B = .error .unusedFieldSet
    ∧ decode 0x0000010B = .error .unusedFieldSet ∧ decode 0x0000001C = .error .unusedFieldSet
    ∧ decode 0x0009000C = .error (.channelOutOfRange 9) := by decide

theorem test_encode_words :
    encode (.temp 26 true) = 0x00001A17 ∧ encode (.hum 54 true) = 0x00003618 ∧ encode (.batt 5) = 0x0005000C := by decide

theorem test_decodeTableWord : decodeTableWord 32 0x00002A17 = some (.temp 42 true) ∧ decodeTableWord 32 0x0000000D = none := by
  decide

/-- 30 R102: the assembler's example forms. -/
theorem test_assemble :
    (assemble .TEMP [.dec [2, 6], .hi]).map encode = some 0x00001A17 ∧ assemble .BATT [.hex [9]] = none
    ∧ assemble .NIB [.hex [1, 0, 0], .lo] = none ∧ assemble .PARSE [.hi] = none := by decide

/-! ### The commands: RESULT and STATUS of 95_test_vectors.md part 2 (at most two each) -/

theorem test_nib_low : seen (exec (.nib 10 false) (block 256 [(10, 0x47)])) = some (0x7, 0x01) := by decide
theorem test_nib_unwritten : faulted (exec (.nib 9 true) (block 256 [])) = some (.fbUnwritten 9) := by decide
theorem test_bcd2_crosses_bytes_and_sets_oor :
    seen (exec (.bcd2 10 false) (block 11 [(10, 0x47), (11, 0x9A)])) = some (79, 0x05) := by decide
theorem test_bcd2_beyond_capacity :
    faulted (exec (.bcd2 255 false) (block 256 [(255, 0x15)])) = some (.fbBeyondCapacity 256) := by decide
theorem test_ovf2 : seen (exec (.ovf2 13 true) (block 256 [(13, 0xAF)])) = some (1, 0x01) := by decide
theorem test_err2_fifteen_is_no_error : seen (exec (.err2 12 true) (block 256 [(12, 0xF3)])) = some (0, 0x01) := by decide
theorem test_ovf3_outside_window :
    seen (exec (.ovf3 20 true) (block 256 [(20, 0x12), (21, 0x0F)])) = some (0, 0x01) := by decide
theorem test_ovf3_reads_whole_span :
    faulted (exec (.ovf3 20 true) (block 256 [(20, 0x12)])) = some (.fbUnwritten 21) := by decide
theorem test_err3_low : seen (exec (.err3 30 false) (block 256 [(30, 0x40), (31, 0x0B)])) = some (1, 0x01) := by decide
theorem test_temp_negative :
    seen (exec (.temp 40 true) (block 41 [(40, 0x36), (41, 0x80)])) = some (0x0000FFE0, 0x05) := by decide
theorem test_temp_overflow_first :
    seen (exec (.temp 48 true) (block 256 [(48, 0x3A), (49, 0xF0)])) = some (0x00020000, 0x01) := by decide
theorem test_hum_low : seen (exec (.hum 57 false) (block 256 [(57, 0x06), (58, 0x7F)])) = some (0x00000043, 0x01) := by decide
theorem test_hum_not_present : seen (exec (.hum 53 true) (block 256 [(53, 0x5B)])) = some (0x0001006E, 0x01) := by decide

/-- Part 2.4, row (2 4 3 1 5 1 C 7): both carries. -/
theorem test_ts8_carry :
    seen (ts8Command exParams 100 true (block 256 [(100, 0x24), (101, 0x31), (102, 0x51), (103, 0xC7)]))
      = some (0x81837ADB, 0x01) := by decide
/-- Part 2.4, the error-pattern row. -/
theorem test_ts8_error_pattern :
    seen (ts8Command exParams 100 true (block 256 [(100, 0x24), (101, 0x31), (102, 0x50), (103, 0x34)]))
      = some (0x00000000, 0x01) := by decide
theorem test_ts10_fifteen_in_year :
    seen (exec (.ts10 110 true) (block 256 [(110, 0x0F), (111, 0x03), (112, 0x15), (113, 0x23), (114, 0x59)]))
      = some (0x80F37DFB, 0x01) := by decide
theorem test_ts10_low_error_nibble :
    seen (exec (.ts10 110 false)
      (block 256 [(110, 0x02), (111, 0x40), (112, 0x31), (113, 0xA2), (114, 0x35), (115, 0x90)]))
      = some (0x00000000, 0x01) := by decide

/-- Part 2.7: a0 = 0x02, a1 = 0x80. -/
theorem test_batt :
    let s := { State.reset with alarm := #v[0x02, 0x80, 0, 0, 0, 0, 0, 0, 0, 0, 0, 0] }
    seen (exec (.batt 0) s) = some (0, 0x01) ∧ seen (exec (.batt 2) s) = some (0, 0x01)
    ∧ seen (exec (.batt 8) s) = some (1, 0x01) ∧ readRegister s RegName.BATT.address = 0x000001FA := by decide

/-- Part 3, Program 4's second PARSE: the short frame keeps RESULT and takes CAPT_IN. -/
theorem test_parse_short :
    let r := exec .parse { filled 0x99 with len := 100, captIn := 0x12345678, result := 0x257, sigq := 0x19 }
    seen r = some (0x00000257, 0x13) ∧ register r .CAPT = some 0x12345678 ∧ register r .SIGQ = some 0
    ∧ register r (.Out 8 0) = some 0x00010000 := by decide

/-- Part 3, Program 6: gating, signal quality and the alarm block, on the example table. -/
theorem test_parse_full :
    let fb := [(4, 0x85), (26, 0x61), (27, 0x5A), (30, 0xA2), (31, 0x43), (32, 0x15), (33, 0x03), (34, 0x42),
      (35, 0x43), (36, 0x15), (37, 0x03), (38, 0x44), (39, 0x5A), (41, 0xA2), (42, 0x3C), (43, 0x24), (44, 0x8D),
      (45, 0x0A), (223, 0x02), (224, 0x80)].foldl (fun m c => Memory.write m c.1 c.2) (filled 0xAA).fb
    let params := { exParams with ts8ErrPattern := #v[0, 0, 0, 0, 0, 0, 0, 0] }
    let r := parseCommand params (block 256 fb)
    seen r = some (0, 0x11) ∧ register r (.Out 0 0) = some 0x000000D7 ∧ register r (.Out 0 3) = some 0x81837822
    ∧ register r (.Out 0 4) = some 0 ∧ register r (.Out 0 5) = some 0x0000002D
    ∧ register r (.Out 0 8) = some 0x817CC49E ∧ register r .SIGQ = some 5 ∧ register r .ALARM0 = some 0xAAAA8002
    ∧ register r (.Out 8 6) = some 0x0001006E := by decide +kernel

/-! ### The step and the host's accesses -/

/-- Part 2.8: an illegal first command leaves STATUS 0x09 and RESULT 0. -/
theorem test_illegal_word_step : seen (step (State.reset.withFetchWord 32 0x0009000C)) = some (0, 0x09) := by decide

/-- The word placed for the next step is the one that runs. -/
theorem test_withFetchWord_runs_it : seen (step (State.reset.withFetchWord 32 0x0008000C)) = some (1, 0x01) := by decide

/-- 10 R39: a LEN above 256 is clamped; R76, R77: a byte written is the byte read. -/
theorem test_host_len_and_bytes :
    register (Host.Core.run core 1 { State.reset with pending := [.hwr 0x02 0x00012345] }) .LEN = some 256
    ∧ (match Host.Core.run core 2 { State.reset with pending := [.fwr 7 0x5A, .frd 7] } with
      | .next t => t.answers | _ => []) = [.fbByte 7 0x5A] := by decide

/-- 30 R104, with Program 1's `FWRS 40, 0x36, 0x80`. -/
theorem test_pseudo_operations :
    fwrs 40 [0x36, 0x80] = some [.fwr 40 0x36, .fwr 41 0x80] ∧ ffill 254 255 0xAA = some [.fwr 254 0xAA, .fwr 255 0xAA]
    ∧ fwrs 255 [1, 2] = none ∧ cmdOp (.batt 2) = .hwr 0x00 0x0002000C := by decide

/-! ### Witnesses: for each obligation with hypotheses, a state and operands that meet them, at the ends of each clause's range -/

/-- A block with only its first six and last six bytes written. -/
def ends : State :=
  block 256 (([0, 1, 2, 3, 4, 5, 250, 251, 252, 253, 254, 255] : List Nat).map fun i => (i, 0x99))

/-- That block, with these accesses pending. -/
def hosting (ops : List HostOp) : State := { ends with pending := ops }

theorem read_map (v : Byte) (l : List Nat) (i : Nat) :
    Memory.read (l.map fun j => (j, v)) i = if i ∈ l then some v else none := by
  induction l with
  | nil => rfl
  | cons j l ih =>
    simp only [List.map_cons, Memory.read, ih, List.mem_cons]
    by_cases h : j = i
    · rw [if_pos h, if_pos (.inl h.symm)]
    · rw [if_neg h]
      exact if_congr ⟨.inr, fun hx => hx.resolve_left fun e => h e.symm⟩ rfl rfl

theorem filled_read (v : Byte) {i : Nat} (h : i < 256) : Memory.read (filled v).fb i = some v :=
  (read_map v _ i).trans (if_pos (List.mem_range.mpr h))

theorem filled_holdsImageOn (v : Byte) {reads : Nat → Prop} (h : ∀ i, reads i → i < 256) :
    holdsImageOn (filled v) (fun _ => v) reads := fun i hi => filled_read v (h i hi)

/-- Every window of the filled frame buffer was written. -/
theorem filled_holds (v : Byte) {n k : Nat} (h : n + k ≤ 512) : holdsWindow (filled v) n (imageWindow (fun _ => v) n k) :=
  holdsWindow_image h fun i hi => filled_read v (by have := hi.1; have := hi.2; unfold windowTop at this; omega)

/-- Where both nibbles of a byte are equal, every window of its image is that nibble over and over. -/
theorem imageWindow_const {v : Byte} {d : Nibble} (h1 : v.extractLsb' 4 4 = d) (h2 : v.extractLsb' 0 4 = d) (n k : Nat) :
    imageWindow (fun _ => v) n k = Vector.replicate k d := by
  apply Vector.ext; intro j hj
  simp only [imageWindow, Vector.getElem_ofFn, Vector.getElem_replicate, nibbleOf, h1, h2, ite_self]

theorem filled_holdsWindow {n k : Nat} (h : n + k ≤ 512) : holdsWindow (filled 0x99) n (Vector.replicate k 9) := by
  rw [← imageWindow_const (v := 0x99) (d := 9) (by decide) (by decide) n k]
  exact filled_holds _ h

theorem witness_DecodeOfEncodeIsTheCommand :
    (Instr.nib 255 true).wellFormed = true ∧ (Instr.ts10 0 false).wellFormed = true ∧ Instr.parse.wellFormed = true
    ∧ (Instr.batt 0).wellFormed = true ∧ (Instr.batt 8).wellFormed = true := by decide

theorem witness_LegalWordIsExactlyOneCommand :
    ¬ illegalWord 0x00000001 ∧ ¬ illegalWord 0x0000FF1A ∧ ¬ illegalWord 0x0000000B ∧ ¬ illegalWord 0x0008000C
    ∧ illegalWord 0x00000000 ∧ illegalWord 0x0000000D ∧ illegalWord 0x00000021 ∧ illegalWord 0x00100001
    ∧ illegalWord 0x00010001 ∧ illegalWord 0x0000001B ∧ illegalWord 0x0009000C := by
  simp only [illegalWord]
  refine ⟨?_, ?_, ?_, ?_, ?_, ?_, ?_, ?_, ?_, ?_, ?_⟩ <;> decide

theorem witness_IllegalWordOnlySetsStatus :
    (hosting [.hwr 0x00 0x0009000C]).pending = .hwr 0x00 0x0009000C :: [] ∧ illegalWord 0x0009000C :=
  ⟨rfl, by simp only [illegalWord]; decide⟩

theorem witness_AssemblerFormsGiveTheirWords :
    (AsmOperand.hex [15, 15]).number = some 255 ∧ (AsmOperand.dec [0]).number = some 0 ∧ (AsmOperand.dec [8]).number = some 8
    ∧ assemble .PARSE [] = some .parse ∧ assemble .BATT [.dec [8]] = some (.batt 8)
    ∧ assemble .TS10 [.hex [15, 15], .lo] = some (.ts10 255 false) := by decide

theorem witness_StepRunsTheDecodedCommand :
    (hosting [.hwr 0x00 0x00001A17]).pending = .hwr 0x00 0x00001A17 :: [] ∧ decode 0x00001A17 = .ok (.temp 26 true) :=
  ⟨rfl, by decide⟩

theorem witness_IdleBlockHoldsItsState : (filled 0x99).pending = [] := rfl

/-- Each clause of the read primitive at its ends: 256; 255 and 0 unwritten; 255 and 0 written; LEN itself and below it. -/
theorem witness_MemReadFollowsItsRule :
    256 ≤ 256 ∧ Memory.read State.reset.fb 255 = none ∧ Memory.read State.reset.fb 0 = none
    ∧ Memory.read (filled 0x99).fb 255 = some 0x99 ∧ Memory.read (filled 0x99).fb 0 = some 0x99
    ∧ (block 11 []).latched [11] = true ∧ (block 11 []).latched [10] = false :=
  ⟨le_refl _, rfl, rfl, filled_read _ (by omega), filled_read _ (by omega), rfl, rfl⟩

theorem witness_WindowIsItsNibblesInOrder :
    win (filled 0x99) 511 1 = .got #v[9] [255] ∧ win (filled 0x99) 0 3 = .got #v[9, 9, 9] [0, 1]
    ∧ win (filled 0x99) 501 10 = .got (Vector.replicate 10 9) [250, 251, 252, 253, 254, 255] :=
  ⟨win_of_holds (by omega) (filled_holdsWindow (by omega)), win_of_holds (by omega) (filled_holdsWindow (by omega)),
    win_of_holds (by omega) (filled_holdsWindow (by omega))⟩

/-- The hypotheses of a window rule's two clauses on effects, for one command: a window that was written, of each alignment,
as near to byte 255 as it goes (`hiLast`, `loLast`); a read beyond the capacity one byte further on, where there is one; and
an unwritten byte at the bottom and at the top of the window at byte 0. -/
def WindowRuleMet (k : Nat) (hiLast loLast : Byte) (top : Nat → Bool → Nat) : Prop :=
  holdsWindow (filled 0x99) (2 * hiLast.toNat + (if true then 0 else 1)) (Vector.replicate k 9)
  ∧ holdsWindow (filled 0x99) (2 * loLast.toNat + (if false then 0 else 1)) (Vector.replicate k 9)
  ∧ (hiLast ≠ 255 → hiLast.toNat + 1 ≤ 256 ∧ 256 ≤ top (hiLast.toNat + 1) true
      ∧ readFault (filled 0x99) 256 = some (.fbBeyondCapacity 256))
  ∧ (loLast ≠ 255 → loLast.toNat + 1 ≤ 256 ∧ 256 ≤ top (loLast.toNat + 1) false
      ∧ readFault (filled 0x99) 256 = some (.fbBeyondCapacity 256))
  ∧ (0 ≤ top 0 true ∧ readFault State.reset 0 = some (.fbUnwritten 0))
  ∧ readFault State.reset (top 0 false) = some (.fbUnwritten (top 0 false))

theorem windowRuleMet {k : Nat} {hiLast loLast : Byte} {top : Nat → Bool → Nat} (h1 : 2 * hiLast.toNat + k ≤ 512)
    (h2 : 2 * loLast.toNat + 1 + k ≤ 512) (h3 : hiLast ≠ 255 → 256 ≤ top (hiLast.toNat + 1) true)
    (h4 : loLast ≠ 255 → 256 ≤ top (loLast.toNat + 1) false) (h5 : top 0 false < 256) :
    WindowRuleMet k hiLast loLast top := by
  have hcap : readFault (filled 0x99) 256 = some (.fbBeyondCapacity 256) := rfl
  have hl1 := hiLast.isLt
  have hl2 := loLast.isLt
  refine ⟨filled_holdsWindow (by simpa using h1), filled_holdsWindow (by simpa using h2),
    fun h => ⟨by omega, h3 h, hcap⟩, fun h => ⟨by omega, h4 h, hcap⟩, ⟨Nat.zero_le _, rfl⟩, ?_⟩
  unfold readFault Config.bufCap
  rw [if_neg (by omega)]
  rfl

theorem witness_NibReturnsTheRawNibble : WindowRuleMet 1 255 255 (fun byte _ => byte) :=
  windowRuleMet (by decide) (by decide) (by decide) (by decide) (by decide)

theorem witness_Bcd2ReturnsTensAndUnits : WindowRuleMet 2 255 254 (fun byte hi => if hi then byte else byte + 1) :=
  windowRuleMet (by decide) (by decide) (by decide) (by decide) (by decide)

theorem witness_Ovf2AndErr2ReturnThePredicates :
    WindowRuleMet 2 255 254 (fun byte hi => if hi then byte else byte + 1) :=
  windowRuleMet (by decide) (by decide) (by decide) (by decide) (by decide)

theorem witness_Ovf3AndErr3ReturnThePredicates : WindowRuleMet 3 254 254 (fun byte _ => byte + 1) :=
  windowRuleMet (by decide) (by decide) (by decide) (by decide) (by decide)

theorem witness_TempDecodesTenths : WindowRuleMet 3 254 254 (fun byte _ => byte + 1) :=
  windowRuleMet (by decide) (by decide) (by decide) (by decide) (by decide)

theorem witness_HumDecodesPercent : WindowRuleMet 2 255 254 (fun byte hi => if hi then byte else byte + 1) :=
  windowRuleMet (by decide) (by decide) (by decide) (by decide) (by decide)

theorem witness_Ts8DecodesTheShortForm :
    WindowRuleMet 8 252 251 (fun byte hi => if hi then byte + 3 else byte + 4) :=
  windowRuleMet (by decide) (by decide) (by decide) (by decide) (by decide)

theorem witness_Ts10DecodesTheLongForm :
    WindowRuleMet 10 251 250 (fun byte hi => if hi then byte + 4 else byte + 5) :=
  windowRuleMet (by decide) (by decide) (by decide) (by decide) (by decide)

/-- Channels 1 and 8 are the ends of the sensors' clause; words of CH 8 and CH 9 are on the two sides of the first. -/
theorem witness_BattReportsTheChannel :
    1 ≤ (1#4).toNat ∧ (8#4).toNat ≤ 8
    ∧ ((0x0008000C : Word) &&& 0xFFF0FFFF = 0x0000000C ∧ ((0x0008000C : Word).extractLsb' 16 4).toNat ≤ 8)
    ∧ ¬ ((0x0009000C : Word).extractLsb' 16 4).toNat ≤ 8 := by decide

theorem witness_ShortParseWritesTheDefaults : (block 0 []).len.toNat < 230 ∧ (block 229 []).len.toNat < 230 := by decide

/-- The memory with `v` at these addresses and nothing else. -/
def bytesAt (v : Byte) (l : List Nat) : Memory := l.foldr (fun i m => Memory.write m i v) []

theorem read_bytesAt (v : Byte) (l : List Nat) (i : Nat) :
    Memory.read (bytesAt v l) i = if i ∈ l then some v else none := by
  induction l with
  | nil => rfl
  | cons j l ih =>
    show Memory.read (Memory.write (bytesAt v l) j v) i = _
    by_cases h : j = i
    · subst h
      rw [Memory.read_write_self, if_pos (List.mem_cons_self ..)]
    · rw [Memory.read_write_other _ _ h, ih]
      exact if_congr ⟨List.mem_cons_of_mem _, fun hx => (List.mem_cons.mp hx).resolve_left fun e => h e.symm⟩ rfl rfl

theorem columnStart_eq (c : Fin 9) (f : Fin 10) : columnStart c f = npos Config.pos0 c f := by
  unfold columnStart
  rw [← nibbleIndex_eq_ite]
  simp [npos, positionRom, Config.stride]

/-- The read set is within the frame buffer. -/
theorem inReadSet_lt {valid : Fin 9 → Fin 10 → Prop} {i : Nat} (h : inReadSet valid i) : i < 256 := by
  have hwin : ∀ (c : Fin 9) (f : Fin 10) k, columnWidth f = k → 0 < k → inWindow (columnStart c f) k i → i < 256 := by
    intro c f k hk h0 hi
    have hfit := npos_window_fits Config.pos0 c f
    rw [← columnStart_eq] at hfit
    have h2 := hi.2
    unfold windowTop at h2
    omega
  rcases h with rfl | h | ⟨c, f, hf, h⟩ | ⟨c, f, hf, h⟩ | ⟨c, f, g, hf, -, h⟩
  · omega
  · omega
  · rcases hf with rfl | rfl | rfl <;> exact hwin c _ 3 rfl (by omega) h
  · rcases hf with rfl | rfl | rfl <;> exact hwin c _ 2 rfl (by omega) h
  · rcases hf with ⟨rfl, -⟩ | ⟨rfl, -⟩ | ⟨rfl, -⟩ | ⟨rfl, -⟩ <;> exact hwin c _ 8 rfl (by omega) h

/-- Where no paired word is VALID, the read set is that of every timestamp gated off. -/
theorem gated_of_not {valid : Fin 9 → Fin 10 → Prop} (hv : ∀ c g, g = 0 ∨ g = 1 ∨ g = 5 ∨ g = 6 → ¬ valid c g) {i : Nat}
    (h : inReadSet valid i) : inReadSet (fun _ _ => False) i := by
  rcases h with h | h | h | h | ⟨c, f, g, hf, h, -⟩
  · exact .inl h
  · exact .inr (.inl h)
  · exact .inr (.inr (.inl h))
  · exact .inr (.inr (.inr (.inl h)))
  · refine absurd h (hv c g ?_)
    rcases hf with ⟨-, rfl⟩ | ⟨-, rfl⟩ | ⟨-, rfl⟩ | ⟨-, rfl⟩ <;> simp

/-- The bytes a full PARSE reads where every timestamp is gated off. -/
def gatedReads : List Nat :=
  4 :: ((List.range 12).map (223 + ·) ++ (List.finRange 9).flatMap fun c =>
    ([0, 1, 2, 5, 6, 7] : List (Fin 10)).flatMap fun f => [columnStart c f / 2, min 255 (columnStart c f / 2 + 1)])

theorem mem_gatedReads {valid : Fin 9 → Fin 10 → Prop} (hv : ∀ c g, ¬ valid c g) {i : Nat} (h : inReadSet valid i) :
    i ∈ gatedReads := by
  have hwin : ∀ (c : Fin 9) (f : Fin 10) k, f ∈ ([0, 1, 2, 5, 6, 7] : List (Fin 10)) → columnWidth f = k → k ≤ 3 →
      inWindow (columnStart c f) k i → i ∈ gatedReads := by
    intro c f k hf hk hk3 hi
    have hfit := npos_window_fits Config.pos0 c f
    rw [← columnStart_eq] at hfit
    have h1 := hi.1
    have h2 := hi.2
    unfold windowTop at h2
    refine List.mem_cons_of_mem _ (List.mem_append_right _ (List.mem_flatMap.mpr ⟨c, List.mem_finRange c,
      List.mem_flatMap.mpr ⟨f, hf, ?_⟩⟩))
    rw [List.mem_cons, List.mem_singleton]
    omega
  rcases h with rfl | h | ⟨c, f, hf, h⟩ | ⟨c, f, hf, h⟩ | ⟨c, f, g, -, h, -⟩
  · exact List.mem_cons_self ..
  · exact List.mem_cons_of_mem _ (List.mem_append_left _ (List.mem_map.mpr ⟨i - 223, List.mem_range.mpr (by omega), by omega⟩))
  · rcases hf with rfl | rfl | rfl <;> exact hwin c _ 3 (by decide) rfl (by omega) h
  · rcases hf with rfl | rfl | rfl <;> exact hwin c _ 2 (by decide) rfl (by omega) h
  · exact absurd h (hv c g)

/-- They are at most 121 of the 256 bytes, so some byte is not among them. -/
theorem gatedReads_misses : ∃ i, i < 256 ∧ i ∉ gatedReads := by
  by_contra h
  push Not at h
  have hsub : Finset.range 256 ⊆ gatedReads.toFinset := fun i hi =>
    List.mem_toFinset.mpr (h i (Finset.mem_range.mp hi))
  have hcard := (Finset.card_le_card hsub).trans (List.toFinset_card_le gatedReads)
  rw [Finset.card_range] at hcard
  have hlen : gatedReads.length = 121 := rfl
  omega

/-- A block with only those bytes written, every nibble of them 10: every temperature and humidity is NOT_PRESENT. -/
def gatedBlock : State := block 230 (bytesAt 0xAA gatedReads)

theorem block_fb (len : BitVec 9) (m : Memory) : (block len m).fb = m := rfl

theorem gatedBlock_fb : gatedBlock.fb = bytesAt 0xAA gatedReads := by
  unfold gatedBlock
  exact block_fb _ _

theorem gatedBlock_read {i : Nat} (h : i ∈ gatedReads) : Memory.read gatedBlock.fb i = some 0xAA := by
  rw [gatedBlock_fb, read_bytesAt, if_pos h]

theorem gatedBlock_misses : ∃ i, i < 256 ∧ Memory.read gatedBlock.fb i = none := by
  obtain ⟨i, hi, hn⟩ := gatedReads_misses
  exact ⟨i, hi, by rw [gatedBlock_fb, read_bytesAt, if_neg hn]⟩

theorem imageWindow_AA (n k : Nat) : imageWindow (fun _ => 0xAA) n k = Vector.replicate k 10 :=
  imageWindow_const (by decide) (by decide) n k

theorem not_imageValid_AA (c : Fin 9) (g : Fin 10) (hg : g = 0 ∨ g = 1 ∨ g = 5 ∨ g = 6) :
    ¬ imageValid (fun _ => 0xAA) c g := by
  have ht : (temperature (Vector.replicate 3 10)).extractLsb' 16 2 ≠ 0 := by decide
  have hh : (humidity (Vector.replicate 2 10)).extractLsb' 16 2 ≠ 0 := by decide
  intro h
  rcases hg with rfl | rfl | rfl | rfl
  · rw [imageValid, show (frameOf fun _ => 0xAA).out[c][(0 : Fin 10)] = temperatureAt (fun _ => 0xAA) c 0 by simp [frameOf],
      temperatureAt, imageWindow_AA] at h
    exact ht h
  · rw [imageValid, show (frameOf fun _ => 0xAA).out[c][(1 : Fin 10)] = temperatureAt (fun _ => 0xAA) c 1 by simp [frameOf],
      temperatureAt, imageWindow_AA] at h
    exact ht h
  · rw [imageValid, show (frameOf fun _ => 0xAA).out[c][(5 : Fin 10)] = humidityAt (fun _ => 0xAA) c 5 by simp [frameOf],
      humidityAt, imageWindow_AA] at h
    exact hh h
  · rw [imageValid, show (frameOf fun _ => 0xAA).out[c][(6 : Fin 10)] = humidityAt (fun _ => 0xAA) c 6 by simp [frameOf],
      humidityAt, imageWindow_AA] at h
    exact hh h

/-- The read set alone is written: some byte, and with it the windows of gated-off timestamps, may be missing. The second
state has every byte. -/
theorem witness_FullParseDecodesTheFrame :
    (230 ≤ gatedBlock.len.toNat ∧ holdsImageOn gatedBlock (fun _ => 0xAA) (inReadSet (imageValid fun _ => 0xAA))
      ∧ ∃ i, i < 256 ∧ Memory.read gatedBlock.fb i = none)
    ∧ 230 ≤ (filled 0x99).len.toNat
      ∧ holdsImageOn (filled 0x99) (fun _ => 0x99) (inReadSet (imageValid fun _ => 0x99)) := by
  have hlen : gatedBlock.len = 230 := by unfold gatedBlock block; rfl
  refine ⟨⟨by rw [hlen]; decide, fun i hi => gatedBlock_read ?_, gatedBlock_misses⟩, by decide,
    filled_holdsImageOn _ fun i => inReadSet_lt⟩
  exact mem_gatedReads (valid := fun _ _ => False) (fun _ _ => id) (gated_of_not (fun c g hg => not_imageValid_AA c g hg) hi)

/-- A full PARSE of an empty frame buffer faults, whatever the open parameters are. -/
theorem empty_parse_faults : ∃ f, exec .parse (block 230 []) = .fault f := by
  have h : Fault.fbUnwritten 4 ∈ (readFrame Config.params (block 230 [])).faults := by
    unfold readFrame
    rw [Fetch.faults_both, Fetch.faults_both]
    exact List.mem_append_left _ (List.mem_append_left _ (List.mem_singleton.mpr rfl))
  obtain ⟨f, -, hf⟩ := finishCommand_of_fault (s := block 230 []) (commit := commitFrame false)
    (List.ne_nil_of_mem h)
  exact ⟨f, hf⟩

/-- A block with only channel 0's first paired window written: digits 9, so it is VALID. -/
def pairedBlock : State := block 230 (bytesAt 0x99 [26, 27])

theorem pairedBlock_valid : pairedValid pairedBlock 0 0 := by
  have hb : (Pos0.start Config.pos0 0).byte = 26 := start_zero_byte _
  refine .inl ⟨.inl rfl, _, holdsWindow_image (image := fun _ => 0x99) ?_ ?_, ?_⟩
  · have := npos_window_fits Config.pos0 0 0
    rw [columnStart_eq]; exact this
  · intro i hi
    have h1 := hi.1
    have h2 := hi.2
    unfold windowTop columnStart at h2
    unfold columnStart at h1
    rw [hb] at h1 h2
    refine (read_bytesAt _ _ i).trans (if_pos ?_)
    have : i = 26 ∨ i = 27 := by
      by_cases hh : (Pos0.start Config.pos0 0).hi = true
      · simp only [hh, if_true, Fin.val_zero] at h1 h2; omega
      · simp only [if_neg hh, Fin.val_zero] at h1 h2; omega
    simpa using this
  · rw [imageWindow_const (d := 9) (by decide) (by decide)]; decide

/-- The first clause in an empty frame buffer; the second at the ends of what is always read, and in the window of a timestamp
whose paired window was written and is VALID. -/
theorem witness_ParseFaultsOnUnwrittenBytesOnly :
    (∃ f, exec .parse (block 230 []) = .fault f)
    ∧ (230 ≤ (block 230 []).len.toNat ∧ inReadSet (pairedValid (block 230 [])) 4
      ∧ inReadSet (pairedValid (block 230 [])) 223 ∧ inReadSet (pairedValid (block 230 [])) 234
      ∧ ∀ i, Memory.read (block 230 []).fb i = none)
    ∧ 230 ≤ pairedBlock.len.toNat ∧ ∃ i, inWindow (columnStart 0 3) 8 i ∧ inReadSet (pairedValid pairedBlock) i
      ∧ Memory.read pairedBlock.fb i = none := by
  refine ⟨empty_parse_faults, ⟨by decide, .inl rfl, .inr (.inl ⟨by omega, by omega⟩), .inr (.inl ⟨by omega, by omega⟩),
    fun _ => rfl⟩, by decide, ?_⟩
  have hout : ∃ i, inWindow (columnStart 0 3) 8 i ∧ i ≠ 26 ∧ i ≠ 27 := by
    by_cases h : columnStart 0 3 / 2 = 26 ∨ columnStart 0 3 / 2 = 27
    · exact ⟨columnStart 0 3 / 2 + 2, ⟨by omega, by unfold windowTop; omega⟩, by omega, by omega⟩
    · exact ⟨columnStart 0 3 / 2, ⟨by omega, by unfold windowTop; omega⟩, by omega, by omega⟩
  obtain ⟨i, hi, h1, h2⟩ := hout
  exact ⟨i, hi, .inr (.inr (.inr (.inr ⟨0, 3, 0, by simp, pairedBlock_valid, hi⟩))),
    (read_bytesAt _ _ i).trans (if_neg (by simp [h1, h2]))⟩

/-- A full PARSE of the filled frame buffer reads a frame, whatever the open parameters are. -/
theorem filled_reads (v₀ : Byte) (p : Params) : ∃ fr reads, readFrame p (filled v₀) = .got fr reads := by
  have hwin : ∀ c f k, columnWidth f = k → 0 < k → ∃ w rs, win (filled v₀) (npos p.pos0 c f) k = .got w rs := by
    intro c f k hk h0
    have := npos_window_fits p.pos0 c f
    exact ⟨_, _, win_of_holds h0 (filled_holds v₀ (by omega))⟩
  have htemp : ∀ c f, columnWidth f = 3 → ∃ v rs, tempUnit (filled v₀) (npos p.pos0 c f) = .got v rs := by
    intro c f h
    obtain ⟨w, rs, hw⟩ := hwin c f 3 h (by omega)
    exact ⟨_, _, by unfold tempUnit; rw [hw]; rfl⟩
  have hhum : ∀ c f, columnWidth f = 2 → ∃ v rs, humUnit (filled v₀) (npos p.pos0 c f) = .got v rs := by
    intro c f h
    obtain ⟨w, rs, hw⟩ := hwin c f 2 h (by omega)
    exact ⟨_, _, by unfold humUnit; rw [hw]; rfl⟩
  have htime : ∀ c f r, columnWidth f = 8 → (∃ v rs, r = .got v rs) →
      ∃ v rs, tsmux p (filled v₀) r (npos p.pos0 c f) = .got v rs := by
    rintro c f r h ⟨u, us, rfl⟩
    obtain ⟨w, rs, hw⟩ := hwin c f 8 h (by omega)
    unfold tsmux
    by_cases ht : tagField u = 0
    · exact ⟨_, _, by simp only [if_pos ht]; rw [hw]; rfl⟩
    · exact ⟨absentTs, [], by simp only [if_neg ht]⟩
  have hcol : ∀ c f, ∃ v rs, column p (filled v₀) c f = .got v rs := by
    intro c f
    match f with
    | 0 => exact htemp c 0 rfl
    | 1 => exact htemp c 1 rfl
    | 2 => exact htemp c 2 rfl
    | 3 => exact htime c 3 _ rfl (htemp c 0 rfl)
    | 4 => exact htime c 4 _ rfl (htemp c 1 rfl)
    | 5 => exact hhum c 5 rfl
    | 6 => exact hhum c 6 rfl
    | 7 => exact hhum c 7 rfl
    | 8 => exact htime c 8 _ rfl (hhum c 5 rfl)
    | 9 => exact htime c 9 _ rfl (hhum c 6 rfl)
  choose v rs h using hcol
  have hlanes : readLanes p (filled v₀)
      = .got (Vector.ofFn fun c => Vector.ofFn (v c)) (List.ofFn fun c => (List.ofFn (rs c)).flatten).flatten := by
    unfold readLanes
    exact Fetch.collect_of_got fun c => Fetch.collect_of_got (h c)
  have hsigq : readSigq (filled v₀) = .got (v₀.extractLsb' 0 7) [4] := by
    unfold readSigq Config.sigqByte
    rw [show memRead (filled v₀) 4 = .got v₀ [4] from memRead_got.mpr ⟨by decide, filled_read v₀ (by omega), rfl⟩]; rfl
  have halarm : readAlarm (filled v₀)
      = .got (Vector.ofFn fun _ => v₀) (List.ofFn fun k : Fin 12 => [Config.alarmBase + k.val]).flatten := by
    unfold readAlarm
    refine Fetch.collect_of_got fun k => memRead_got.mpr ⟨?_, ?_, rfl⟩
    · unfold Config.alarmBase Config.bufCap; omega
    · exact filled_read v₀ (by unfold Config.alarmBase; omega)
  exact ⟨_, _, by unfold readFrame; rw [hsigq, hlanes, halarm]; rfl⟩

/-- So PARSE completes there. -/
theorem filled_parse_completes (v : Byte) : ∃ t, exec .parse (filled v) = .next t := by
  obtain ⟨fr, reads, h⟩ := filled_reads v Config.params
  exact ⟨_, parse_next.mpr (.inr ⟨(by decide : 230 ≤ (256 : BitVec 9).toNat), fr, reads, h, rfl⟩)⟩

theorem witness_ParseReadsExactlyItsReadSet : ∃ fr reads, readFrame Config.params (filled 0x99) = .got fr reads :=
  filled_reads _ Config.params

theorem witness_ParseMakesAtMost301Reads : ∃ fr reads, readFrame exParams (filled 0x99) = .got fr reads :=
  filled_reads _ exParams

/-- Both kinds of PARSE complete. -/
theorem witness_ParsedFrameIsGated :
    (∃ t, exec .parse (filled 0x99) = .next t) ∧ ∃ t, exec .parse (block 229 []) = .next t :=
  ⟨filled_parse_completes _, _, rfl⟩

/-- Each clause at its last start position, and the first clause's low one. -/
theorem witness_Bcd2AgreesWithTwoNibs :
    (∃ t u v, exec (.nib 255 true) ends = .next t ∧ exec (.nib 255 false) ends = .next u
      ∧ exec (.bcd2 255 true) ends = .next v)
    ∧ ∃ t u v, (255 : Byte).toNat = (254 : Byte).toNat + 1 ∧ exec (.nib 254 false) ends = .next t
      ∧ exec (.nib 255 true) ends = .next u ∧ exec (.bcd2 254 false) ends = .next v :=
  ⟨⟨_, _, _, rfl, rfl, rfl⟩, _, _, _, rfl, rfl, rfl, rfl⟩

theorem witness_TagsAgreeWithThePredicates :
    (∃ t o e, exec (.temp 254 true) ends = .next t ∧ exec (.ovf3 254 true) ends = .next o
      ∧ exec (.err3 254 true) ends = .next e)
    ∧ ∃ t o e, exec (.hum 254 false) ends = .next t ∧ exec (.ovf2 254 false) ends = .next o
      ∧ exec (.err2 254 false) ends = .next e :=
  ⟨⟨_, _, _, rfl, rfl, rfl⟩, _, _, _, rfl, rfl, rfl⟩

theorem witness_ResultWordsStayInTheirDomains :
    (∃ t, exec (.temp 254 true) ends = .next t) ∧ (∃ t, exec (.hum 0 false) ends = .next t)
    ∧ (∃ t, exec (.ts8 252 true) ends = .next t) ∧ ∃ t, exec (.ts10 0 false) ends = .next t :=
  ⟨⟨_, rfl⟩, ⟨_, rfl⟩, ⟨_, rfl⟩, _, rfl⟩

/-- The ends of each clause: tim1 and tim2 at 0, 9, 10 and 15; hour and minute at 0 and at 23 and 59. -/
theorem witness_CarryRuleOutcomes :
    ((0#4).toNat ≤ 9 ∧ (9#4).toNat ≤ 9 ∧ 10 ≤ (10#4).toNat ∧ 10 ≤ (15#4).toNat)
    ∧ (0 ≤ 23 ∧ 0 ≤ 59) ∧ (23 ≤ 23 ∧ 59 ≤ 59) ∧ (carryHour 13 0 = 23 ∧ carryMinute 0 15 = 15)
    ∧ carryHour 0 15 = 10 ∧ carryMinute 15 9 = 59 := by decide

/-- Every single-field command completes. -/
theorem witness_SingleFieldCommandFrame :
    ∀ i ∈ [Instr.nib 255 false, .bcd2 255 true, .ovf2 0 false, .err2 0 true, .ovf3 254 false, .err3 0 true, .temp 0 true,
      .hum 254 false, .ts8 251 false, .ts10 250 false, .batt 8],
      i ≠ .parse ∧ ∃ t, exec i ends = .next t := by
  simp only [List.forall_mem_cons]
  refine ⟨⟨by decide, _, rfl⟩, ⟨by decide, _, rfl⟩, ⟨by decide, _, rfl⟩, ⟨by decide, _, rfl⟩, ⟨by decide, _, rfl⟩,
    ⟨by decide, _, rfl⟩, ⟨by decide, _, rfl⟩, ⟨by decide, _, rfl⟩, ⟨by decide, _, rfl⟩, ⟨by decide, _, rfl⟩,
    ⟨by decide, _, rfl⟩, by simp⟩

theorem witness_ParseLeavesResultAndInputs :
    (∃ t, exec .parse (filled 0x99) = .next t) ∧ ∃ t, exec .parse (block 229 []) = .next t :=
  witness_ParsedFrameIsGated

/-- The same block in what no command reads: RESULT, SIGQ, CMD, the latch and the alarm bytes above 1. -/
def otherwise (s : State) : State :=
  { s with result := 7, sigq := 3, cmd := 1, latchOor := true, alarm := s.alarm.set 2 0xFF }

theorem otherwise_fb (s : State) : (otherwise s).fb = s.fb := rfl

/-- The second state lacks a byte that the first has, and the bytes PARSE reads from the first it has equal. -/
theorem filled_gated_agree : ∀ b, readsByte (filled 0xAA) b .parse →
    Memory.read (block 256 gatedBlock.fb).fb b = Memory.read (filled 0xAA).fb b := by
  have ht : (temperature (Vector.replicate 3 10)).extractLsb' 16 2 ≠ 0 := by decide
  have hh : (humidity (Vector.replicate 2 10)).extractLsb' 16 2 ≠ 0 := by decide
  have hnot : ∀ c g, ¬ pairedValid (filled 0xAA) c g := by
    rintro c g (⟨-, w, hw, hv⟩ | ⟨-, w, hw, hv⟩)
    · rw [holdsWindow_unique hw (filled_holds 0xAA hw.1), imageWindow_AA] at hv
      exact ht hv
    · rw [holdsWindow_unique hw (filled_holds 0xAA hw.1), imageWindow_AA] at hv
      exact hh hv
  rintro b ⟨-, hb⟩
  rw [filled_read 0xAA (inReadSet_lt hb), block_fb]
  exact gatedBlock_read (mem_gatedReads hnot hb)

/-- A command of each shape completes in a state, and another state agrees with it on no more than the command reads: a window
command where only the window's bytes were written, BATT with an empty frame buffer and another alarm byte, PARSE with a byte
never written. -/
theorem witness_CommandDependsOnItsInputsOnly :
    (let s' := otherwise (block 256 [(254, 0x99), (255, 0x99)]);
      (∀ b, readsByte ends b (.temp 254 true) → Memory.read s'.fb b = Memory.read ends.fb b)
      ∧ sameRegisters ends s' (.temp 254 true) ∧ ∃ t, exec (.temp 254 true) ends = .next t)
    ∧ (let s' := otherwise (block 0 []);
      (∀ b, readsByte ends b (.batt 8) → Memory.read s'.fb b = Memory.read ends.fb b)
      ∧ sameRegisters ends s' (.batt 8) ∧ ∃ t, exec (.batt 8) ends = .next t)
    ∧ (let s' := otherwise (block 256 gatedBlock.fb);
      (∀ b, readsByte (filled 0xAA) b .parse → Memory.read s'.fb b = Memory.read (filled 0xAA).fb b)
      ∧ sameRegisters (filled 0xAA) s' .parse ∧ (∃ t, exec .parse (filled 0xAA) = .next t)
      ∧ ∃ i, i < 256 ∧ Memory.read s'.fb i = none) := by
  refine ⟨⟨?_, rfl, _, rfl⟩, ⟨fun _ h => h.elim, ⟨rfl, rfl⟩, _, rfl⟩, ?_, ⟨rfl, rfl⟩,
    filled_parse_completes _, ?_⟩
  · rintro b ⟨h1, h2⟩
    have hb : b = 254 ∨ b = 255 := by
      have e1 : 254 ≤ b := h1
      have e2 : b ≤ 255 := h2
      omega
    rcases hb with rfl | rfl <;> rfl
  · rw [otherwise_fb]
    exact filled_gated_agree
  · rw [otherwise_fb, block_fb]
    exact gatedBlock_misses

/-- A fault of each kind. -/
theorem witness_CommandsEndNextOrInAModelFault :
    exec (.bcd2 255 false) ends = .fault (.fbBeyondCapacity 256)
    ∧ exec (.nib 9 true) State.reset = .fault (.fbUnwritten 9) := ⟨rfl, rfl⟩

/-- Each kind of access completes as the first one pending. -/
theorem witness_StatusIsWrittenByCommandsAndReset :
    (decode 0x0000000B = .ok .parse ∧ ∃ t, step { filled 0x99 with pending := [.hwr 0x00 0x0000000B] } = .next t)
    ∧ (decode 0x0008000C ≠ .ok .parse ∧ ∃ t, step (hosting [.hwr 0x00 0x0008000C]) = .next t)
    ∧ (illegalWord 0x0009000C ∧ ∃ t, step (hosting [.hwr 0x00 0x0009000C]) = .next t)
    ∧ (∃ t, step (hosting [.reset]) = .next t)
    ∧ (∃ t, step (hosting [.hwr 0x01 5]) = .next t) ∧ (∃ t, step (hosting [.frd 255]) = .next t)
    ∧ (∃ t, step (hosting [.fwr 255 1]) = .next t) ∧ ∃ t, step (hosting [.hrd 0x9F]) = .next t := by
  refine ⟨⟨by decide, ?_⟩, ⟨by decide, _, rfl⟩, ⟨by simp only [illegalWord]; decide, _, rfl⟩, ⟨_, rfl⟩, ⟨_, rfl⟩,
    ⟨_, rfl⟩, ⟨_, rfl⟩, _, rfl⟩
  obtain ⟨fr, reads, h⟩ := filled_reads _ Config.params
  have h' : readFrame Config.params { filled 0x99 with pending := [], accessCount := 1, cmd := 0x0000000B }
      = .got fr reads := (readFrame_congr _ rfl).trans h
  exact ⟨_, parse_next.mpr (.inr ⟨by decide, fr, reads, h', rfl⟩)⟩

/-- The reserved addresses at the ends of each clause, read-only registers written, and a register read. -/
theorem witness_ReservedAndReadOnlyAddresses :
    (0x0B ≤ (0x0B#8).toNat ∧ (0x0F#8).toNat ≤ 0x0F) ∧ (0x10 ≤ (0x1A#8).toNat ∧ 10 ≤ (0x1A#8).toNat % 16)
    ∧ 10 ≤ (0x9F#8).toNat % 16 ∧ 0xA0 ≤ (0xA0#8).toNat ∧ 0xA0 ≤ (0xFF#8).toNat
    ∧ (hosting [.hwr 0x04 1]).pending = .hwr 0x04 1 :: [] ∧ (hosting [.hwr 0xFF 1]).pending = .hwr 0xFF 1 :: []
    ∧ (hosting [.hrd 0x9F]).pending = .hrd 0x9F :: [] :=
  ⟨by decide, by decide, by decide, by decide, by decide, rfl, rfl, rfl⟩

theorem witness_LenClampsAndReadsBack :
    (hosting [.hwr 0x02 256]).pending = .hwr 0x02 256 :: [] ∧ (hosting [.hwr 0x02 257]).pending = .hwr 0x02 257 :: []
    ∧ (∃ t, exec (.nib 0 true) ends = .next t) ∧ ∃ t, exec .parse (filled 0x99) = .next t :=
  ⟨rfl, rfl, ⟨_, rfl⟩, filled_parse_completes _⟩

theorem witness_CaptInIsTheHosts :
    (hosting [.hwr 0x03 7]).pending = .hwr 0x03 7 :: [] ∧ (∃ t, exec (.nib 0 true) ends = .next t)
    ∧ ∃ t, exec .parse (filled 0x99) = .next t := ⟨rfl, ⟨_, rfl⟩, filled_parse_completes _⟩

theorem witness_BattRegisterIsDerived : 1 ≤ 1 ∧ 1 ≤ 8 ∧ 8 ≤ 8 := by decide

theorem witness_HostByteWriteSetsOneByte :
    (hosting [.fwr 255 1]).pending = .fwr 255 1 :: [] ∧ (hosting [.fwr 0 1]).pending = .fwr 0 1 :: []
    ∧ 254 ≠ (255#8).toNat := ⟨rfl, rfl, by decide⟩

theorem witness_HostByteReadAnswersWrittenBytes :
    ((hosting [.frd 255]).pending = .frd 255 :: [] ∧ Memory.read (hosting [.frd 255]).fb (255#8).toNat = some 0x99)
    ∧ Memory.read { State.reset with pending := [.frd 255] }.fb (255#8).toNat = none :=
  ⟨⟨rfl, rfl⟩, rfl⟩

theorem witness_ResetSetsEveryRegister : (hosting [.reset]).pending = .reset :: [] := rfl

theorem witness_UnwrittenBytesFaultAfterReset :
    (∀ a, Memory.read (block 230 []).fb a = none) ∧ Instr.nib 255 true ≠ .parse ∧ (∀ ch, Instr.nib 255 true ≠ .batt ch)
    ∧ 230 ≤ (block 230 []).len.toNat := ⟨fun _ => rfl, by decide, by simp, by decide⟩

/-- A host write of LEN, a command that is no PARSE, and the idle step. -/
theorem witness_OnlyParseWritesTheFrame :
    (∃ t, step (hosting [.hwr 0x02 5]) = .next t) ∧ (∃ t, step (hosting [.hwr 0x00 0x0000FE17]) = .next t)
    ∧ (∃ t, step (hosting []) = .next t)
    ∧ ∀ op ∈ [HostOp.hwr 0x02 5, .hwr 0x00 0x0000FE17], ¬ isParse op ∧ op ≠ .reset := by
  refine ⟨⟨_, rfl⟩, ⟨_, rfl⟩, ⟨_, rfl⟩, ?_⟩
  simp only [List.forall_mem_cons]
  refine ⟨⟨?_, by decide⟩, ⟨?_, by decide⟩, by simp⟩
  · rintro ⟨v, h, -⟩
    exact absurd (HostOp.hwr.inj h).1 (by decide)
  · rintro ⟨v, h, hd⟩
    obtain rfl := (HostOp.hwr.inj h).2
    exact absurd hd (by decide)

theorem witness_OnlyTheHostWritesTheFrameBuffer :
    (∃ t, step (hosting [.hwr 0x00 0x0000FE17]) = .next t)
    ∧ (∀ i v, HostOp.hwr 0x00 0x0000FE17 ≠ .fwr i v) ∧ HostOp.hwr 0x00 0x0000FE17 ≠ .reset :=
  ⟨⟨_, rfl⟩, by simp, by decide⟩

/-- A host byte write, and an illegal command word. -/
theorem witness_OnlySingleFieldCommandsWriteResult :
    (∃ t, step (hosting [.fwr 3 1]) = .next t) ∧ (∃ t, step (hosting [.hwr 0x00 0x0009000C]) = .next t)
    ∧ ∀ op ∈ [HostOp.fwr 3 1, .hwr 0x00 0x0009000C], ¬ isSingleField op ∧ op ≠ .reset := by
  refine ⟨⟨_, rfl⟩, ⟨_, rfl⟩, ?_⟩
  simp only [List.forall_mem_cons]
  refine ⟨⟨?_, by decide⟩, ⟨?_, by decide⟩, by simp⟩
  · rintro ⟨v, i, h, -⟩
    exact absurd h (by simp)
  · rintro ⟨v, i, h, hd, -⟩
    obtain rfl := (HostOp.hwr.inj h).2
    rw [show decode 0x0009000C = .error (.channelOutOfRange 9) from by decide] at hd
    simp at hd

/-- A run of two accesses and an idle step. -/
theorem witness_FrameIsASnapshotUntilTheNextParse :
    (∃ t, Host.Core.run core 3 (hosting [.fwr 26 0, .hwr 0x02 5]) = .next t)
    ∧ ∀ op ∈ (hosting [.fwr 26 0, .hwr 0x02 5]).pending.take 3, ¬ isParse op ∧ op ≠ .reset := by
  refine ⟨⟨_, rfl⟩, ?_⟩
  show ∀ op ∈ [HostOp.fwr 26 0, .hwr 0x02 5], _
  simp only [List.forall_mem_cons]
  refine ⟨⟨?_, by decide⟩, ⟨?_, by decide⟩, by simp⟩
  · rintro ⟨v, h, -⟩
    exact absurd h (by simp)
  · rintro ⟨v, h, -⟩
    exact absurd (HostOp.hwr.inj h).1 (by decide)

/-- The block after reset, its first command waiting. -/
theorem witness_StepKeepsTheInvariant :
    let s := { State.reset with pending := [.hwr 0x00 0x0008000C] }
    Inv s ∧ ∃ t, step s = .next t := by
  refine ⟨⟨rfl, by decide, rfl, by decide, by decide, by decide, fun _ => ⟨rfl, rfl, rfl, rfl⟩, by decide, fun c => ?_⟩,
    _, rfl⟩
  have h := shortFrame_laneOk c
  rw [shortFrame_out] at h
  exact h

end Sys2Proof.Tests
end

section
/-! SUPPORT. The frame buffer is the host's: no command writes it (00_scope.md R13, 10_state.md R52). -/

namespace Sys2Proof.Machine

/-- No command writes the frame buffer: a single-field command commits RESULT, PARSE commits the frame registers. -/
theorem exec_next_fb {i : Instr} {s t : State} (h : exec i s = .next t) : t.fb = s.fb := by
  by_cases hi : i = .parse
  · subst hi
    have h' : parseCommand Config.params s = .next t := h
    obtain ⟨-, rfl⟩ | ⟨-, fr, rs, -, rfl⟩ := parse_next.mp h'
    · rfl
    · rfl
  · obtain ⟨v, oor, rfl⟩ := exec_single_next hi h
    rfl

/-- Of the host's accesses, all but the byte write and reset leave the frame buffer as it is. -/
theorem Did.fb_eq {u t : State} {op : HostOp} (h : Did u op t) (hw : ∀ i v, op ≠ .fwr i v)
    (hr : op ≠ .reset) : t.fb = u.fb := by
  cases h with
  | fwr i v => exact absurd rfl (hw i v)
  | reset => exact absurd rfl hr
  | command v i t hd he =>
    have hfb := exec_next_fb he
    exact hfb
  | frd | illegal | len | captIn | ignored | hrd => rfl

/-- Settles O47, by the step's inversion: the idle step changes nothing, and `Did.fb_eq` covers the access taken up. -/
theorem onlyTheHostWritesTheFrameBuffer : Obligations.OnlyTheHostWritesTheFrameBuffer := by
  intro s t hstep hop a
  obtain ⟨-, rfl⟩ | ⟨op, rest, hpending, hdid⟩ := step_next hstep
  · rfl
  · obtain ⟨hw, hr⟩ := hop op rest hpending
    rw [hdid.fb_eq hw hr, issue_fb]

end Sys2Proof.Machine
end

section
/-! SUPPORT. What a command and a host access leave of the registers, said once: the next state of `exec`, the command write of
`Did`, and what every other access keeps (30_encoding.md R105, 10_state.md R34 to R43). -/

namespace Sys2Proof.Machine

/-! ### The next state of a command -/

/-- The next state of every command: a single-field command leaves RESULT, PARSE leaves the short frame where LEN is below 230
and a decoded one elsewhere. -/
theorem exec_next {i : Instr} {s t : State} (h : exec i s = .next t) :
    (i ≠ .parse ∧ ∃ v oor, t = afterResult s v oor)
    ∨ (i = .parse ∧ s.len.toNat < 230 ∧ t = afterParse s true shortFrame false)
    ∨ (i = .parse ∧ 230 ≤ s.len.toNat ∧ ∃ fr rs, readFrame Config.params s = .got fr rs
        ∧ t = afterParse s false fr (s.latched rs)) := by
  by_cases hi : i = .parse
  · subst hi
    have hp : parseCommand Config.params s = .next t := h
    obtain ⟨hlen, ht⟩ | ⟨hlen, hread⟩ := parse_next.mp hp
    · exact .inr (.inl ⟨rfl, hlen, ht⟩)
    · exact .inr (.inr ⟨rfl, hlen, hread⟩)
  · exact .inl ⟨hi, exec_single_next hi h⟩

/-- Every PARSE that completes is `afterParse` of some frame, with SHORT as LEN has it (R35). -/
theorem exec_parse_next {s t : State} (h : exec .parse s = .next t) :
    ∃ short fr oor, t = afterParse s short fr oor ∧ (short = true ↔ s.len.toNat < 230) := by
  obtain ⟨hne, -⟩ | ⟨-, hlen, rfl⟩ | ⟨-, hlen, fr, rs, -, rfl⟩ := exec_next h
  · exact absurd rfl hne
  · exact ⟨true, _, _, rfl, by simp [hlen]⟩
  · exact ⟨false, _, _, rfl, by simp [hlen]⟩

/-- No command writes LEN or CAPT_IN, the host's inputs (R39, R40). -/
theorem exec_next_inputs {i : Instr} {s t : State} (h : exec i s = .next t) :
    t.len = s.len ∧ t.captIn = s.captIn := by
  obtain ⟨-, v, oor, rfl⟩ | ⟨-, -, rfl⟩ | ⟨-, -, fr, rs, -, rfl⟩ := exec_next h
  · exact ⟨rfl, rfl⟩
  · exact ⟨rfl, rfl⟩
  · exact ⟨rfl, rfl⟩

/-- Every command that completes sets DONE, clears ILL and copies the latch to OOR (R105). -/
theorem exec_next_status {i : Instr} {s t : State} (h : exec i s = .next t) :
    t.status.done = true ∧ t.status.ill = false ∧ t.status.oor = t.latchOor := by
  obtain ⟨-, v, oor, rfl⟩ | ⟨-, -, rfl⟩ | ⟨-, -, fr, rs, -, rfl⟩ := exec_next h
  · exact ⟨rfl, rfl, rfl⟩
  · exact ⟨rfl, rfl, rfl⟩
  · exact ⟨rfl, rfl, rfl⟩

/-! ### One host access -/

theorem step_of_pending {s : State} {op : HostOp} {rest : List HostOp} (h : s.pending = op :: rest) :
    step s = hostAccess op (s.issue rest) := by
  unfold step
  rw [h]

/-- The step's inversion where the access taken up is known. -/
theorem did_of_step {s t : State} {op : HostOp} {rest : List HostOp} (hp : s.pending = op :: rest)
    (h : step s = .next t) : Did (s.issue rest) op t := by
  obtain ⟨hnil, -⟩ | ⟨op', rest', hp', hdid⟩ := step_next h
  · rw [hp] at hnil; cases hnil
  · rw [hp] at hp'; cases hp'; exact hdid

/-- A host write to CMD ran the command the word decodes to, or found the word illegal (R32, R105). -/
theorem Did.command_cases {u t : State} {v : Word} (h : Did u (.hwr 0x00 v) t) :
    (∃ i, decode v = .ok i ∧ exec i { u with cmd := v } = .next t)
    ∨ (∃ e, decode v = .error e ∧ t = ({ u with cmd := v } : State).completeIllegal) := by
  generalize hop : HostOp.hwr 0x00 v = op at h
  cases h with
  | command w i t hd he =>
    obtain ⟨-, rfl⟩ := HostOp.hwr.inj hop
    exact .inl ⟨i, hd, he⟩
  | illegal w e hd =>
    obtain ⟨-, rfl⟩ := HostOp.hwr.inj hop
    exact .inr ⟨e, hd, rfl⟩
  | len w => exact absurd (HostOp.hwr.inj hop).1 (by decide)
  | captIn w => exact absurd (HostOp.hwr.inj hop).1 (by decide)
  | ignored a w h0 => exact absurd (HostOp.hwr.inj hop).1.symm h0
  | fwr | frd | hrd | reset => cases hop

/-- An access that is neither a command write nor reset leaves STATUS as it is (R34). -/
theorem Did.status_eq {u t : State} {op : HostOp} (h : Did u op t) (hcmd : ∀ v, op ≠ .hwr 0x00 v)
    (hreset : op ≠ .reset) : t.status = u.status := by
  cases h with
  | command v => exact absurd rfl (hcmd v)
  | illegal v => exact absurd rfl (hcmd v)
  | reset => exact absurd rfl hreset
  | fwr | frd | len | captIn | ignored | hrd => rfl

/-- The frame registers, which PARSE alone writes, are the same in two states (R42, R43, R45, R49). -/
def sameFrame (s t : State) : Prop :=
  t.out = s.out ∧ t.sigq = s.sigq ∧ t.capt = s.capt ∧ t.alarm = s.alarm

/-- An access that is neither a PARSE nor reset leaves the frame registers as they are. -/
theorem Did.frame_eq {u t : State} {op : HostOp} (h : Did u op t) (hparse : ¬ Rules.isParse op)
    (hreset : op ≠ .reset) : sameFrame u t := by
  cases h with
  | command v i t hd he =>
    have hi : i ≠ .parse := fun hi => hparse ⟨v, rfl, hi ▸ hd⟩
    obtain ⟨w, oor, rfl⟩ := exec_single_next hi he
    exact ⟨rfl, rfl, rfl, rfl⟩
  | reset => exact absurd rfl hreset
  | fwr | frd | illegal | len | captIn | ignored | hrd => exact ⟨rfl, rfl, rfl, rfl⟩

/-- An access that is neither a single-field command nor reset leaves RESULT as it is (R41). -/
theorem Did.result_eq {u t : State} {op : HostOp} (h : Did u op t) (hsingle : ¬ Rules.isSingleField op)
    (hreset : op ≠ .reset) : t.result = u.result := by
  cases h with
  | command v i t hd he =>
    have hi : i = .parse := by
      by_contra hi
      exact hsingle ⟨v, i, rfl, hd, hi⟩
    subst hi
    obtain ⟨short, fr, oor, rfl, -⟩ := exec_parse_next he
    rfl
  | reset => exact absurd rfl hreset
  | fwr | frd | illegal | len | captIn | ignored | hrd => rfl

end Sys2Proof.Machine
end

section
/-! SUPPORT. The invariant through one host access: reset meets it, a command keeps it, and so does every other access
(10_state.md R34 to R39, R45 to R48, 44_frame_demux.md R164, R171). -/

namespace Sys2Proof.Machine

/-- The state after reset meets the invariant. -/
theorem inv_reset : Inv State.reset where
  memory := rfl
  lenLegal := by decide
  oorIsLatch := rfl
  doneFirst := by decide
  notBoth := by decide
  shortParsed := by decide
  unparsed := fun _ => ⟨rfl, rfl, rfl, rfl⟩
  short := by decide
  lanes c := by
    rw [← shortFrame_out]
    exact shortFrame_laneOk c

/-- What the host owns may change freely: the invariant asks of it only a canonical memory and a legal LEN. -/
theorem Inv.withHostFields {s : State} (h : Inv s) {fb : Memory} {len : BitVec 9} (hfb : Memory.wf fb = true)
    (hlen : len.toNat ≤ 256) (cmd captIn : Word) (pending : List HostOp) (answers : List HostAnswer)
    (accessCount : Nat) :
    Inv { s with
      cmd := cmd, len := len, captIn := captIn, fb := fb, pending := pending, answers := answers,
      accessCount := accessCount } :=
  { h with memory := hfb, lenLegal := hlen }

/-- The common STATUS update at the end of a command, with any RESULT, keeps the invariant where ILL and OOR are not both set
(R36, R105). -/
theorem Inv.completed {s : State} (h : Inv s) (result : Word) {oor ill : Bool} (hboth : ¬ (oor = true ∧ ill = true)) :
    Inv { s with
      result := result
      latchOor := oor
      status := { s.status with ill := ill, oor := oor, done := true } } :=
  { h with oorIsLatch := rfl, doneFirst := fun _ => rfl, notBoth := hboth }

/-- PARSE sets PARSED, so the invariant after it is what holds of the frame it committed. -/
theorem Inv.parsed {s : State} (h : Inv s) {short : Bool} {fr : Frame} (oor : Bool)
    (hlanes : ∀ c : Fin 9, laneOk fr.out[c]) (hshort : short = true → fr = shortFrame) :
    Inv (afterParse s short fr oor) where
  memory := h.memory
  lenLegal := h.lenLegal
  oorIsLatch := rfl
  doneFirst := fun _ => rfl
  notBoth := by simp [afterParse]
  shortParsed := fun _ => rfl
  unparsed := by simp [afterParse]
  short := by
    intro hs
    obtain rfl := hshort hs
    exact ⟨rfl, rfl, rfl⟩
  lanes := hlanes

/-- A command that completes keeps the invariant. -/
theorem Inv.of_exec {i : Instr} {s t : State} (h : Inv s) (he : exec i s = .next t) : Inv t := by
  obtain ⟨-, v, oor, rfl⟩ | ⟨-, -, rfl⟩ | ⟨-, -, fr, rs, hread, rfl⟩ := exec_next he
  · exact h.completed v (by simp)
  · exact h.parsed false shortFrame_laneOk fun _ => rfl
  · exact h.parsed _ (readFrame_laneOk hread) (by simp)

/-- Every host access keeps the invariant. -/
theorem Inv.of_did {u t : State} {op : HostOp} (h : Inv u) (hd : Did u op t) : Inv t := by
  have hmem := h.memory
  have hlen := h.lenLegal
  cases hd with
  | fwr i v => exact h.withHostFields (Memory.wf_write v i.isLt hmem) hlen _ _ _ _ _
  | len v => exact h.withHostFields hmem (by rw [clampLen_toNat]; omega) _ _ _ _ _
  | command v i t hd he => exact (h.withHostFields hmem hlen v _ _ _ _).of_exec he
  | illegal v e hd =>
    exact (h.withHostFields hmem hlen v _ _ _ _).completed _ (oor := false) (ill := true) (by simp)
  | reset => exact inv_reset.withHostFields rfl (by decide) _ _ _ _ _
  | frd | captIn | ignored | hrd => exact h.withHostFields hmem hlen _ _ _ _ _

/-- Settles O50: the step takes an access up, which touches the host's fields only, and `Inv.of_did` covers the access. -/
theorem stepKeepsTheInvariant : Obligations.StepKeepsTheInvariant := by
  intro s t hinv hstep
  obtain ⟨-, rfl⟩ | ⟨op, rest, -, hdid⟩ := step_next hstep
  · exact hinv
  · exact (hinv.withHostFields hinv.memory hinv.lenLegal _ _ rest _ _ : Inv (s.issue rest)).of_did hdid

end Sys2Proof.Machine
end

section
/-! SUPPORT. Which words the decoder rejects (30_encoding.md R97 to R99): `decode` by the value of OP, and its rejections as
`illegalWord` states them. -/

namespace Sys2Proof

open Sys2Proof.Rules

/-- A choice between a command and a rejection rejects exactly where its test fails. -/
theorem ite_ok_error_iff {p : Prop} [Decidable p] {i : Instr} {r : Reject} :
    (∃ e, (if p then Except.ok i else .error r) = Except.error e) ↔ ¬ p := by
  by_cases h : p <;> simp [h]

theorem decode_of_reservedBit {v : Word} (h : res0Of v ≠ 0 ∨ res1Of v ≠ 0) : decode v = .error .reservedBitSet := by
  unfold decode
  rw [if_pos h]

section ReservedBitsClear

variable {v : Word} (h0 : res0Of v = 0) (h1 : res1Of v = 0)
include h0 h1

/-- OP 0x1 to 0xA are the window commands (R97). -/
theorem decode_window (hop : 1 ≤ (opOf v).toNat ∧ (opOf v).toNat ≤ 0xA) : ∃ mk, decode v = windowForm mk v := by
  unfold decode
  rw [if_neg (by simp [h0, h1])]
  obtain ⟨hlo, hhi⟩ := hop
  interval_cases (opOf v).toNat <;> exact ⟨_, rfl⟩

theorem decode_parse (hop : (opOf v).toNat = 0xB) :
    decode v = if hiOf v = false ∧ byteOf v = 0 ∧ chOf v = 0 then .ok .parse else .error .unusedFieldSet := by
  unfold decode
  rw [if_neg (by simp [h0, h1]), hop]
  rfl

theorem decode_batt (hop : (opOf v).toNat = 0xC) :
    decode v = if hiOf v = false ∧ byteOf v = 0 then
        if (chOf v).toNat ≤ 8 then .ok (.batt (chOf v)) else .error (.channelOutOfRange (chOf v))
      else .error .unusedFieldSet := by
  unfold decode
  rw [if_neg (by simp [h0, h1]), hop]
  rfl

theorem decode_reservedOp (hop : (opOf v).toNat = 0 ∨ 0xD ≤ (opOf v).toNat) :
    decode v = .error (.reservedOp (opOf v)) := by
  unfold decode
  rw [if_neg (by simp [h0, h1])]
  split
  any_goals omega
  rfl

end ReservedBitsClear

/-- R99: the decoder rejects exactly the illegal words. -/
theorem decode_error_iff (v : Word) : (∃ e, decode v = .error e) ↔ illegalWord v := by
  have hv := v.isLt
  have hop := opOf_toNat v
  unfold illegalWord
  by_cases hres : res0Of v ≠ 0 ∨ res1Of v ≠ 0
  · refine iff_of_true ⟨_, decode_of_reservedBit hres⟩ ?_
    rw [ne_eq, ne_eq, res0Of_eq_zero, res1Of_eq_zero] at hres
    omega
  obtain ⟨h0, h1⟩ : res0Of v = 0 ∧ res1Of v = 0 := by simpa using hres
  have n0 := (res0Of_eq_zero v).mp h0
  have n1 := (res1Of_eq_zero v).mp h1
  by_cases hreserved : (opOf v).toNat = 0 ∨ 0xD ≤ (opOf v).toNat
  · exact iff_of_true ⟨_, decode_reservedOp h0 h1 hreserved⟩ (by omega)
  by_cases hparse : (opOf v).toNat = 0xB
  · rw [decode_parse h0 h1 hparse, ite_ok_error_iff, hiOf_eq_false, byteOf_eq_zero, chOf_eq_zero]
    omega
  by_cases hbatt : (opOf v).toNat = 0xC
  · rw [decode_batt h0 h1 hbatt]
    by_cases hunused : hiOf v = false ∧ byteOf v = 0
    · rw [if_pos hunused, ite_ok_error_iff, chOf_toNat]
      rw [hiOf_eq_false, byteOf_eq_zero] at hunused
      omega
    · rw [if_neg hunused]
      rw [hiOf_eq_false, byteOf_eq_zero] at hunused
      exact iff_of_true ⟨_, rfl⟩ (by omega)
  · obtain ⟨mk, hwindow⟩ := decode_window h0 h1 (by omega)
    rw [hwindow, windowForm, ite_ok_error_iff, chOf_eq_zero]
    omega

end Sys2Proof
end

section
/-! SUPPORT. The register map: what a read of each address gives, and the bits of the words put together at a read
(10_state.md R29, R30, R33, R45, R49, R50). -/

namespace Sys2Proof.Machine

/-- LEN is read zero-extended (R39). -/
theorem readRegister_len_toNat (s : State) : (readRegister s 0x02).toNat = s.len.toNat :=
  BitVec.toNat_setWidth_of_le (by omega)

/-- SIGQ is read zero-extended (R42). -/
theorem readRegister_sigq_toNat (s : State) : (readRegister s 0x05).toNat = s.sigq.toNat :=
  BitVec.toNat_setWidth_of_le (by omega)

/-- Out[c][f] stands at 0x10 + 16*c + f (R45). -/
theorem readRegister_out (s : State) (c : Fin 9) (f : Fin 10) :
    readRegister s (BitVec.ofNat 8 (0x10 + 16 * c.val + f.val)) = s.out[c][f] := by
  have ha : (BitVec.ofNat 8 (0x10 + 16 * c.val + f.val)).toNat = 0x10 + 16 * c.val + f.val := by
    rw [BitVec.toNat_ofNat]; omega
  have hc : (0x10 + 16 * c.val + f.val - 0x10) / 16 = c.val := by omega
  have hf : (0x10 + 16 * c.val + f.val) % 16 = f.val := by omega
  unfold readRegister
  rw [ha]
  split
  case h_12 =>
    rw [dif_pos (by omega)]
    simp only [hc, hf, Fin.getElem_fin]
  all_goals omega

/-- The addresses no register has (R29, R30). -/
def reservedAddress (a : BitVec 8) : Prop :=
  (0x0B ≤ a.toNat ∧ a.toNat ≤ 0x0F) ∨ (0x10 ≤ a.toNat ∧ 10 ≤ a.toNat % 16) ∨ 0xA0 ≤ a.toNat

theorem readRegister_reserved (s : State) {a : BitVec 8} (h : reservedAddress a) : readRegister s a = 0 := by
  unfold reservedAddress at h
  unfold readRegister
  split
  case h_12 => rw [dif_neg (by omega)]
  all_goals omega

theorem readRegister_alarm (s : State) (j : Fin 3) :
    readRegister s (BitVec.ofNat 8 (0x08 + j.val)) = alarmWord s.alarm j := by
  match j with
  | 0 => rfl
  | 1 => rfl
  | 2 => rfl

/-! ### The bits of the words a read puts together -/

theorem field_eq_zero {m : Nat} (v : BitVec m) (lo len : Nat) :
    v.extractLsb' lo len = 0 ↔ v.toNat / 2 ^ lo % 2 ^ len = 0 := by
  rw [← field_toNat, ← BitVec.toNat_inj]
  simp

/-- STATUS has 32 values, and each has its bits where R33 says. -/
theorem status_toWord_bits (st : Status) :
    st.toWord.getLsbD 0 = st.done ∧ st.toWord.getLsbD 1 = st.short ∧ st.toWord.getLsbD 2 = st.oor
    ∧ st.toWord.getLsbD 3 = st.ill ∧ st.toWord.getLsbD 4 = st.parsed ∧ st.toWord.extractLsb' 5 27 = 0 := by
  obtain ⟨done, short, oor, ill, parsed⟩ := st
  revert done short oor ill parsed
  decide

/-- Byte `m` of four bytes put together is the `m`-th from the right. -/
theorem extract_byte_append (b3 b2 b1 b0 : Byte) (m : Fin 4) :
    (b3 ++ b2 ++ b1 ++ b0).extractLsb' (8 * m.val) 8 = #v[b0, b1, b2, b3][m] := by
  have h0 := b0.isLt
  have h1 := b1.isLt
  have h2 := b2.isLt
  have h3 := b3.isLt
  apply BitVec.eq_of_toNat_eq
  rw [field_toNat, append_toNat, append_toNat, append_toNat]
  match m with
  | 0 => show _ / 2 ^ 0 % 2 ^ 8 = b0.toNat; omega
  | 1 => show _ / 2 ^ 8 % 2 ^ 8 = b1.toNat; omega
  | 2 => show _ / 2 ^ 16 % 2 ^ 8 = b2.toNat; omega
  | 3 => show _ / 2 ^ 24 % 2 ^ 8 = b3.toNat; omega

/-- R49. -/
theorem alarmWord_byte (alarm : Vector Byte 12) (j : Fin 3) (m : Fin 4) :
    (alarmWord alarm j).extractLsb' (8 * m.val) 8 = alarm[4 * j.val + m.val] := by
  unfold alarmWord
  rw [extract_byte_append]
  match m with
  | 0 => rfl
  | 1 => rfl
  | 2 => rfl
  | 3 => rfl

/-- Bit `c` of BATT is channel `c`'s battery (R50). -/
theorem battWord_bit (baseBit : Fin 8) (alarm : Vector Byte 12) {c : Nat} (hc : c ≤ 8) :
    (battWord baseBit alarm).getLsbD c = battOk baseBit alarm c := by
  unfold battWord
  simp only [BitVec.getLsbD_append]
  interval_cases c <;> simp

/-- Bits 31:9 of BATT read 0 (R50). -/
theorem battWord_high (baseBit : Fin 8) (alarm : Vector Byte 12) :
    (battWord baseBit alarm).extractLsb' 9 23 = 0 := by
  apply BitVec.eq_of_getLsbD_eq
  intro i hi
  unfold battWord
  simp only [BitVec.getLsbD_extractLsb', BitVec.getLsbD_append]
  simp

theorem battOk_base (baseBit : Fin 8) (alarm : Vector Byte 12) :
    battOk baseBit alarm 0 = !(alarm[1].getLsbD baseBit.val) := rfl

theorem battOk_channel (baseBit : Fin 8) (alarm : Vector Byte 12) {c : Nat} (hc : 1 ≤ c) :
    battOk baseBit alarm c = !(alarm[0].getLsbD (c - 1)) := if_neg (by omega)

end Sys2Proof.Machine
end

section
/-! SUPPORT. What a host write to CMD leaves of STATUS (10_state.md R34 to R38). -/

namespace Sys2Proof.Machine

/-- A host write to CMD sets DONE, copies the latch to OOR, and sets ILL exactly for an illegal word (R34, R36, R37). -/
theorem Did.command_status {u t : State} {v : Word} (h : Did u (.hwr 0x00 v) t) :
    t.status.done = true ∧ (t.status.ill = true ↔ Rules.illegalWord v) ∧ t.status.oor = t.latchOor := by
  rw [← decode_error_iff]
  obtain ⟨i, hd, he⟩ | ⟨e, hd, rfl⟩ := h.command_cases
  · obtain ⟨hdone, hill, hoor⟩ := exec_next_status he
    exact ⟨hdone, by simp [hill, hd], hoor⟩
  · exact ⟨rfl, by simp [hd], rfl⟩

/-- PARSE sets PARSED and writes SHORT by LEN (R35, R38). -/
theorem Did.parse_status {u t : State} {v : Word} (h : Did u (.hwr 0x00 v) t) (hd : decode v = .ok .parse) :
    t.status.parsed = true ∧ (t.status.short = true ↔ u.len.toNat < 230) := by
  obtain ⟨i, hi, he⟩ | ⟨e, he, -⟩ := h.command_cases
  · obtain rfl := Except.ok.inj (hd.symm.trans hi)
    obtain ⟨short, fr, oor, rfl, hshort⟩ := exec_parse_next he
    exact ⟨rfl, hshort⟩
  · rw [hd] at he; cases he

/-- Any other command write leaves PARSED and SHORT as they are (R35, R38). -/
theorem Did.other_command_status {u t : State} {v : Word} (h : Did u (.hwr 0x00 v) t) (hd : decode v ≠ .ok .parse) :
    t.status.parsed = u.status.parsed ∧ t.status.short = u.status.short := by
  obtain ⟨i, hi, he⟩ | ⟨e, -, rfl⟩ := h.command_cases
  · obtain ⟨w, oor, rfl⟩ := exec_single_next (fun hp => hd (hp ▸ hi)) he
    exact ⟨rfl, rfl⟩
  · exact ⟨rfl, rfl⟩

end Sys2Proof.Machine
end

section
/-! SUPPORT. The statements about STATUS, the registers and what a step leaves of them, settled from the laws above
(10_state.md). -/

namespace Sys2Proof.Machine

/-- Settles O30: a single-field command leaves `afterResult`. -/
theorem singleFieldCommandFrame : Obligations.SingleFieldCommandFrame := by
  intro i s t hi h
  obtain ⟨v, oor, rfl⟩ := exec_single_next hi h
  exact ⟨rfl, rfl, rfl, rfl, rfl, rfl, rfl, rfl, rfl, fun _ => rfl, rfl, rfl, rfl⟩

/-- Settles O34, access by access: a command write, reset, or another. -/
theorem statusIsWrittenByCommandsAndReset : Obligations.StatusIsWrittenByCommandsAndReset := by
  intro s t op rest hp hstep
  have hdid := did_of_step hp hstep
  refine ⟨?_, ?_, fun hcmd hreset => hdid.status_eq hcmd hreset⟩
  · rintro v rfl
    obtain ⟨hdone, hill, hoor⟩ := hdid.command_status
    exact ⟨hdone, hill, hoor, hdid.parse_status, hdid.other_command_status⟩
  · rintro rfl
    cases hdid
    rfl

/-- Settles O46, by the step's inversion and `Did.frame_eq`. -/
theorem onlyParseWritesTheFrame : Obligations.OnlyParseWritesTheFrame := by
  intro s t hstep hop
  obtain ⟨-, rfl⟩ | ⟨op, rest, hp, hdid⟩ := step_next hstep
  · exact ⟨rfl, rfl, rfl, rfl⟩
  · obtain ⟨hparse, hreset⟩ := hop op rest hp
    exact hdid.frame_eq hparse hreset

/-- Settles O48, by the step's inversion and `Did.result_eq`. -/
theorem onlySingleFieldCommandsWriteResult : Obligations.OnlySingleFieldCommandsWriteResult := by
  intro s t hstep hop
  obtain ⟨-, rfl⟩ | ⟨op, rest, hp, hdid⟩ := step_next hstep
  · rfl
  · obtain ⟨hsingle, hreset⟩ := hop op rest hp
    exact hdid.result_eq hsingle hreset

/-- Settles O35: address 0x01 reads the STATUS word. -/
theorem statusWordLayout : Obligations.StatusWordLayout := fun s => status_toWord_bits s.status

/-- Settles O36: the named addresses read their fields, and `readRegister_out` gives the frame output registers. -/
theorem registerMapReads : Obligations.RegisterMapReads := by
  intro s
  exact ⟨rfl, readRegister_len_toNat s, rfl, rfl, readRegister_sigq_toNat s, rfl, readRegister_out s⟩

/-- Settles O37: `readRegister_reserved` and `writeRegister_other`; a register read is one access that only answers. -/
theorem reservedAndReadOnlyAddresses : Obligations.ReservedAndReadOnlyAddresses := by
  refine ⟨fun s a h => readRegister_reserved s h, ?_, ?_⟩
  · intro s a v rest hp h0 h2 h3
    rw [step_of_pending hp]
    exact writeRegister_other h0 h2 h3 v _
  · intro s a rest hp
    rw [step_of_pending hp]
    rfl

/-- Settles O38: the clamp is `clampLen_toNat`, and the commands' part is `exec_next_inputs`. -/
theorem lenClampsAndReadsBack : Obligations.LenClampsAndReadsBack := by
  refine ⟨?_, ?_, fun i s t h => (exec_next_inputs h).1, rfl⟩
  · intro s v rest hp
    refine ⟨clampLen v, clampLen_toNat v, ?_⟩
    rw [step_of_pending hp]
    exact writeRegister_len v _
  · intro s
    have hlen := s.len.isLt
    have hread : (readRegister s 0x02).toNat = s.len.toNat := readRegister_len_toNat s
    constructor
    · rw [field_eq_zero, hread]
      omega
    · apply BitVec.eq_of_toNat_eq
      rw [field_toNat, hread]
      omega

/-- Settles O39: the commands' part is `exec_next_inputs`, and PARSE's copy is in `afterParse`. -/
theorem captInIsTheHosts : Obligations.CaptInIsTheHosts := by
  refine ⟨?_, fun s => rfl, fun i s t h => (exec_next_inputs h).2, rfl, ?_⟩
  · intro s v rest hp
    rw [step_of_pending hp]
    exact writeRegister_captIn v _
  · intro s t h
    obtain ⟨short, fr, oor, rfl, -⟩ := exec_parse_next h
    rfl

/-- Settles O40: address 0x08 + j reads ALARMj, and `alarmWord_byte` gives its bytes. -/
theorem alarmRegistersAreLittleEndian : Obligations.AlarmRegistersAreLittleEndian := by
  intro s j m
  rw [readRegister_alarm]
  exact alarmWord_byte s.alarm j m

/-- Settles O41: the bits of `battWord` are `battOk`, whose two cases are the base station and a channel. -/
theorem battRegisterIsDerived : Obligations.BattRegisterIsDerived := by
  refine ⟨fun s => ⟨?_, ?_, battWord_high _ _⟩, by decide⟩
  · exact (battWord_bit _ _ (Nat.zero_le 8)).trans (battOk_base _ _)
  · intro c h1 h8
    exact (battWord_bit _ _ h8).trans (battOk_channel _ _ h1)

end Sys2Proof.Machine
end

section
/-! SUPPORT. The frame buffer's statements: the read primitive (20_memory.md R74, R75), windows (R71 to R73), and the host's
byte accesses (R76, R77). -/

namespace Sys2Proof.Machine

/-! ### The read primitive -/

theorem memRead_beyond (s : State) {i : Nat} (hi : Config.bufCap ≤ i) :
    memRead s i = .failed (.fbBeyondCapacity i) [] := if_pos hi

theorem memRead_unwritten {s : State} {i : Nat} (hi : i < Config.bufCap) (h : Memory.read s.fb i = none) :
    memRead s i = .failed (.fbUnwritten i) [] := by
  unfold memRead
  rw [if_neg (Nat.not_le_of_lt hi), h]

theorem latched_singleton (s : State) (i : Nat) : s.latched [i] = true ↔ s.len.toNat ≤ i := by
  simp [State.latched]

/-- Settles O8: `memRead`'s three cases, and the latch over one address. -/
theorem memReadFollowsItsRule : Obligations.MemReadFollowsItsRule := by
  intro s i
  exact ⟨memRead_beyond s, memRead_unwritten, fun b hi hb => memRead_got.mpr ⟨hi, hb, rfl⟩, latched_singleton s i⟩

/-! ### Windows -/

theorem nibbleAt_eq_some {m : Memory} {n : Nat} {x : Nibble} :
    nibbleAt m n = some x ↔ ∃ b, Memory.read m (n / 2) = some b ∧ nibbleOf b n = x :=
  Option.map_eq_some_iff

theorem windowReads_nodup (n k : Nat) : (windowReads n k).Nodup :=
  List.nodup_range.map (add_right_injective (n / 2))

/-- Settles O9: a window that is read holds its nibbles (`holds_of_win`), and its reads are `windowReads`. -/
theorem windowIsItsNibblesInOrder : Obligations.WindowIsItsNibblesInOrder := by
  intro s n k w reads hk hwin
  obtain ⟨⟨-, hnib⟩, rfl⟩ := holds_of_win hk hwin
  refine ⟨fun j => ?_, windowReads_nodup n k, fun i => mem_windowReads hk⟩
  obtain ⟨b, hread, hval⟩ := nibbleAt_eq_some.mp (hnib j)
  exact ⟨b, hread, hval.symm⟩

/-! ### The frame-buffer port -/

theorem hostFbRead_written {s : State} {i : BitVec 8} {b : Byte} (h : Memory.read s.fb i.toNat = some b) :
    hostFbRead i s = .next { s with answers := s.answers ++ [.fbByte i b] } := by
  unfold hostFbRead
  rw [h]

theorem hostFbRead_unwritten {s : State} {i : BitVec 8} (h : Memory.read s.fb i.toNat = none) :
    hostFbRead i s = .fault (.fbUnwritten i.toNat) := by
  unfold hostFbRead
  rw [h]

/-- Settles O42: the new memory is `Memory.write`, which reads as written at its address and as before at every other. -/
theorem hostByteWriteSetsOneByte : Obligations.HostByteWriteSetsOneByte := by
  intro s i v rest hp
  refine ⟨Memory.write s.fb i.toNat v, step_of_pending hp, Memory.read_write_self _ _ _, fun a ha => ?_⟩
  exact Memory.read_write_other _ v ha.symm

/-- Settles O43: the step is `hostFbRead`, whose two cases are a written byte and an unwritten one. -/
theorem hostByteReadAnswersWrittenBytes : Obligations.HostByteReadAnswersWrittenBytes := by
  intro s i rest hp
  rw [step_of_pending hp]
  exact ⟨fun b hb => hostFbRead_written (s := s.issue rest) hb, fun hn => hostFbRead_unwritten (s := s.issue rest) hn⟩

end Sys2Proof.Machine
end

section
/-! SUPPORT. The encoder against the decoder (30_encoding.md R97 to R102): the ten window rows as one table, the shape of every
command, and the words that decode to a command. -/

namespace Sys2Proof

/-- The window rows of the opcode map: an OP and the commands of its row (R97). -/
inductive WindowRow : Nat → (Byte → Bool → Instr) → Prop where
  | nib : WindowRow 0x1 .nib
  | bcd2 : WindowRow 0x2 .bcd2
  | ovf2 : WindowRow 0x3 .ovf2
  | err2 : WindowRow 0x4 .err2
  | ovf3 : WindowRow 0x5 .ovf3
  | err3 : WindowRow 0x6 .err3
  | temp : WindowRow 0x7 .temp
  | hum : WindowRow 0x8 .hum
  | ts8 : WindowRow 0x9 .ts8
  | ts10 : WindowRow 0xA .ts10

/-- Every command is of a window row, PARSE or BATT, so that the ten window rows are one case of a proof. -/
theorem Instr.shape (i : Instr) :
    (∃ op mk byte hi, WindowRow op mk ∧ i = mk byte hi) ∨ i = .parse ∨ ∃ ch, i = .batt ch := by
  cases i with
  | nib byte hi => exact .inl ⟨_, _, byte, hi, .nib, rfl⟩
  | bcd2 byte hi => exact .inl ⟨_, _, byte, hi, .bcd2, rfl⟩
  | ovf2 byte hi => exact .inl ⟨_, _, byte, hi, .ovf2, rfl⟩
  | err2 byte hi => exact .inl ⟨_, _, byte, hi, .err2, rfl⟩
  | ovf3 byte hi => exact .inl ⟨_, _, byte, hi, .ovf3, rfl⟩
  | err3 byte hi => exact .inl ⟨_, _, byte, hi, .err3, rfl⟩
  | temp byte hi => exact .inl ⟨_, _, byte, hi, .temp, rfl⟩
  | hum byte hi => exact .inl ⟨_, _, byte, hi, .hum, rfl⟩
  | ts8 byte hi => exact .inl ⟨_, _, byte, hi, .ts8, rfl⟩
  | ts10 byte hi => exact .inl ⟨_, _, byte, hi, .ts10, rfl⟩
  | parse => exact .inr (.inl rfl)
  | batt ch => exact .inr (.inr ⟨ch, rfl⟩)

/-- OP 0x1 to 0xA are the window rows. -/
theorem exists_windowRow {op : Nat} (h : 1 ≤ op ∧ op ≤ 0xA) : ∃ mk, WindowRow op mk := by
  obtain ⟨hlo, hhi⟩ := h
  interval_cases op
  exacts [⟨_, .nib⟩, ⟨_, .bcd2⟩, ⟨_, .ovf2⟩, ⟨_, .err2⟩, ⟨_, .ovf3⟩, ⟨_, .err3⟩, ⟨_, .temp⟩, ⟨_, .hum⟩, ⟨_, .ts8⟩,
    ⟨_, .ts10⟩]

namespace WindowRow

variable {op : Nat} {mk : Byte → Bool → Instr} (h : WindowRow op mk)
include h

theorem op_lt : op < 16 := by cases h <;> decide

theorem wellFormed (byte : Byte) (hi : Bool) : (mk byte hi).wellFormed = true := by cases h <;> rfl

theorem encode_eq (byte : Byte) (hi : Bool) : encode (mk byte hi) = assembleWord op hi byte 0 := by cases h <;> rfl

/-- A word of the row decodes by `windowForm`. -/
theorem decode_eq {v : Word} (h0 : res0Of v = 0) (h1 : res1Of v = 0) (hop : (opOf v).toNat = op) :
    decode v = windowForm mk v := by
  unfold decode
  rw [if_neg (by simp [h0, h1]), hop]
  cases h <;> rfl

end WindowRow

/-- Decoding undoes encoding: the assembled word has the fields it was assembled from. -/
theorem decode_encode {i : Instr} (h : i.wellFormed = true) : decode (encode i) = .ok i := by
  obtain ⟨op, mk, byte, hi, hrow, rfl⟩ | rfl | ⟨ch, rfl⟩ := i.shape
  · have hop := hrow.op_lt
    rw [hrow.encode_eq, hrow.decode_eq (res0Of_assembleWord hop hi byte 0) (res1Of_assembleWord hop hi byte 0)
      (opOf_assembleWord hop hi byte 0), windowForm, if_pos (chOf_assembleWord hop hi byte 0),
      byteOf_assembleWord hop, hiOf_assembleWord hop]
  · decide
  · have hop : 0xC < 16 := by decide
    have hch : ch.toNat ≤ 8 := of_decide_eq_true h
    rw [encode, decode_batt (res0Of_assembleWord hop false 0 ch) (res1Of_assembleWord hop false 0 ch)
      (opOf_assembleWord hop false 0 ch), if_pos ⟨hiOf_assembleWord hop false 0 ch, byteOf_assembleWord hop false 0 ch⟩,
      chOf_assembleWord hop, if_pos hch]

/-- A choice between a command and a rejection gives a command where its test holds. -/
theorem ite_ok_eq_ok_iff {p : Prop} [Decidable p] {i j : Instr} {r : Reject} :
    (if p then Except.ok i else .error r) = Except.ok j ↔ p ∧ i = j := by
  by_cases h : p <;> simp [h]

/-- A word that decodes to a command is that command's encoding: the fields the command does not hold are 0. -/
theorem encode_of_decode {v : Word} {i : Instr} (h : decode v = .ok i) : i.wellFormed = true ∧ encode i = v := by
  by_cases hres : res0Of v ≠ 0 ∨ res1Of v ≠ 0
  · rw [decode_of_reservedBit hres] at h
    cases h
  obtain ⟨h0, h1⟩ : res0Of v = 0 ∧ res1Of v = 0 := by simpa using hres
  have hv := eq_assembleWord h0 h1
  by_cases hreserved : (opOf v).toNat = 0 ∨ 0xD ≤ (opOf v).toNat
  · rw [decode_reservedOp h0 h1 hreserved] at h
    cases h
  by_cases hparse : (opOf v).toNat = 0xB
  · rw [decode_parse h0 h1 hparse, ite_ok_eq_ok_iff] at h
    obtain ⟨⟨hhi, hbyte, hch⟩, rfl⟩ := h
    rw [hparse, hhi, hbyte, hch] at hv
    exact ⟨rfl, hv.symm⟩
  by_cases hbatt : (opOf v).toNat = 0xC
  · rw [decode_batt h0 h1 hbatt] at h
    by_cases hunused : hiOf v = false ∧ byteOf v = 0
    · rw [if_pos hunused, ite_ok_eq_ok_iff] at h
      obtain ⟨hch, rfl⟩ := h
      rw [hbatt, hunused.1, hunused.2] at hv
      exact ⟨decide_eq_true hch, hv.symm⟩
    · rw [if_neg hunused] at h
      cases h
  · obtain ⟨mk, hrow⟩ := exists_windowRow (op := (opOf v).toNat) (by omega)
    rw [hrow.decode_eq h0 h1 rfl, windowForm, ite_ok_eq_ok_iff] at h
    obtain ⟨hch, rfl⟩ := h
    rw [hch] at hv
    exact ⟨hrow.wellFormed _ _, (hrow.encode_eq _ _).trans hv.symm⟩

/-- The decoder and the encoder are inverse to each other, between the words that decode and the well-formed commands. -/
theorem decode_eq_ok_iff {v : Word} {i : Instr} : decode v = .ok i ↔ i.wellFormed = true ∧ encode i = v := by
  constructor
  · exact encode_of_decode
  · rintro ⟨hwf, rfl⟩
    exact decode_encode hwf

/-- Settles O1: `decode_encode`, over the three shapes of a command. -/
theorem decodeOfEncodeIsTheCommand : Obligations.DecodeOfEncodeIsTheCommand := fun _ => decode_encode

/-- Settles O2: a word that is not illegal decodes (`decode_error_iff`), and `decode_eq_ok_iff` makes its command the only
one that encodes to it. -/
theorem legalWordIsExactlyOneCommand : Obligations.LegalWordIsExactlyOneCommand := by
  intro v
  rw [← decode_error_iff]
  constructor
  · intro hlegal
    cases hd : decode v with
    | error e => exact absurd ⟨e, hd⟩ hlegal
    | ok i =>
      obtain ⟨hwf, henc⟩ := decode_eq_ok_iff.mp hd
      refine ⟨i, hwf, henc, rfl, fun j hj hjv => ?_⟩
      have hdj : decode v = .ok j := decode_eq_ok_iff.mpr ⟨hj, hjv⟩
      exact Except.ok.inj (hdj.symm.trans hd)
  · rintro ⟨e, he⟩ j hj hjv
    have hdj : decode v = .ok j := decode_eq_ok_iff.mpr ⟨hj, hjv⟩
    rw [he] at hdj
    cases hdj

/-- Settles O4: twelve closed words. -/
theorem writtenOutWordsDecode : Obligations.WrittenOutWordsDecode := by
  unfold Obligations.WrittenOutWordsDecode
  decide

end Sys2Proof
end

section
/-! SUPPORT. The command write and the assembler (30_encoding.md R99, R102, R105). -/

namespace Sys2Proof.Machine

/-! ### The command write -/

theorem commandStep_ok {v : Word} {i : Instr} (h : decode v = .ok i) (s : State) :
    commandStep v s = exec i { s with cmd := v } := by
  unfold commandStep
  rw [h]

theorem commandStep_error {v : Word} {e : Reject} (h : decode v = .error e) (s : State) :
    commandStep v s = .next ({ s with cmd := v } : State).completeIllegal := by
  unfold commandStep
  rw [h]

/-- A pending write to CMD is `commandStep` of its word. -/
theorem step_of_command {s : State} {v : Word} {rest : List HostOp} (h : s.pending = .hwr 0x00 v :: rest) :
    step s = commandStep v (s.issue rest) :=
  step_of_pending h

/-- Settles O3: the rejected words are `decode_error_iff`, and the step on one is `commandStep_error`. -/
theorem illegalWordOnlySetsStatus : Obligations.IllegalWordOnlySetsStatus := by
  refine ⟨fun v => (decode_error_iff v).symm, fun v s rest hp hill => ?_⟩
  obtain ⟨e, he⟩ := (decode_error_iff v).mpr hill
  rw [step_of_command hp, commandStep_error he]
  rfl

/-- Settles O6: the step is `commandStep_ok`. -/
theorem stepRunsTheDecodedCommand : Obligations.StepRunsTheDecodedCommand := by
  intro s v rest i hp hd
  rw [step_of_command hp, commandStep_ok hd]
  rfl

/-! ### The assembler -/

/-- A window mnemonic's form is the command that `windowCommand` names. -/
theorem assemble_window {m : Mnemonic} {a b : AsmOperand} {n : Nat} {hi : Bool} (hn : a.number = some n) (hle : n ≤ 255)
    (hb : b.alignment = some hi) : assemble m [a, b] = windowCommand (BitVec.ofNat 8 n) hi m := by
  simp only [assemble, hn, hb, if_pos hle]

theorem assemble_batt {a : AsmOperand} {n : Nat} (hn : a.number = some n) (hle : n ≤ 8) :
    assemble .BATT [a] = some (.batt (BitVec.ofNat 4 n)) := by
  simp [assemble, hn, hle]

/-- The mnemonics of R102's table with their OPs name the window rows. -/
theorem windowCommand_row : ∀ p ∈ [(Mnemonic.NIB, 0x1), (.BCD2, 0x2), (.OVF2, 0x3), (.ERR2, 0x4), (.OVF3, 0x5), (.ERR3, 0x6),
      (.TEMP, 0x7), (.HUM, 0x8), (.TS8, 0x9), (.TS10, 0xA)],
    ∃ mk, WindowRow p.2 mk ∧ ∀ byte hi, windowCommand byte hi p.1 = some (mk byte hi) := by
  simp only [List.forall_mem_cons]
  exact ⟨⟨_, .nib, fun _ _ => rfl⟩, ⟨_, .bcd2, fun _ _ => rfl⟩, ⟨_, .ovf2, fun _ _ => rfl⟩, ⟨_, .err2, fun _ _ => rfl⟩,
    ⟨_, .ovf3, fun _ _ => rfl⟩, ⟨_, .err3, fun _ _ => rfl⟩, ⟨_, .temp, fun _ _ => rfl⟩, ⟨_, .hum, fun _ _ => rfl⟩,
    ⟨_, .ts8, fun _ _ => rfl⟩, ⟨_, .ts10, fun _ _ => rfl⟩, nofun⟩

/-- `windowCommand` has no command for PARSE and BATT. -/
theorem windowCommand_eq_some {byte : Byte} {hi : Bool} {m : Mnemonic} {i : Instr} (h : windowCommand byte hi m = some i) :
    m ≠ .PARSE ∧ m ≠ .BATT := by
  constructor <;> rintro rfl <;> cases h

theorem alignment_eq_some {b : AsmOperand} {hi : Bool} (h : b.alignment = some hi) : b = .hi ∨ b = .lo := by
  cases b with
  | hi => exact .inl rfl
  | lo => exact .inr rfl
  | dec | hex => cases h

/-- The word of a window form whose byte is given by its number. -/
theorem assembleWord_byte {op n : Nat} (hi : Bool) (hn : n ≤ 255) :
    assembleWord op hi (BitVec.ofNat 8 n) 0 = BitVec.ofNat 32 (op + (hi.toNat <<< 4) + (n <<< 8)) := by
  have hbyte : (BitVec.ofNat 8 n).toNat = n := (BitVec.toNat_ofNat _ _).trans (Nat.mod_eq_of_lt (by omega))
  simp [assembleWord, hbyte, Nat.shiftLeft_eq]

theorem assembleWord_channel {op n : Nat} (hn : n ≤ 8) :
    assembleWord op false 0 (BitVec.ofNat 4 n) = BitVec.ofNat 32 (op + (n <<< 16)) := by
  have hch : (BitVec.ofNat 4 n).toNat = n := (BitVec.toNat_ofNat _ _).trans (Nat.mod_eq_of_lt (by omega))
  simp [assembleWord, hch, Nat.shiftLeft_eq]

/-- The forms the assembler accepts, by their number of operands (R102). -/
theorem assemble_eq_some {m : Mnemonic} {ops : List AsmOperand} {i : Instr} (h : assemble m ops = some i) :
    (m = .PARSE ∧ ops = [])
    ∨ (m = .BATT ∧ ∃ a n, ops = [a] ∧ a.number = some n ∧ n ≤ 8)
    ∨ (m ≠ .PARSE ∧ m ≠ .BATT ∧ ∃ a b n, ops = [a, b] ∧ a.number = some n ∧ n ≤ 255 ∧ (b = .hi ∨ b = .lo)) := by
  match ops with
  | [] =>
    obtain ⟨hm, -⟩ := Option.ite_none_right_eq_some.mp h
    exact .inl ⟨hm, rfl⟩
  | [a] =>
    cases hn : a.number with
    | none => simp [assemble, hn] at h
    | some n =>
      simp only [assemble, hn, Option.ite_none_right_eq_some] at h
      obtain ⟨⟨hm, hle⟩, -⟩ := h
      exact .inr (.inl ⟨hm, a, n, rfl, hn, hle⟩)
  | [a, b] =>
    cases hn : a.number with
    | none => simp [assemble, hn] at h
    | some n =>
      cases hb : b.alignment with
      | none => simp [assemble, hn, hb] at h
      | some hi =>
        simp only [assemble, hn, hb, Option.ite_none_right_eq_some] at h
        obtain ⟨hle, hwindow⟩ := h
        obtain ⟨hparse, hbatt⟩ := windowCommand_eq_some hwindow
        exact .inr (.inr ⟨hparse, hbatt, a, b, n, rfl, hn, hle, alignment_eq_some hb⟩)
  | _ :: _ :: _ :: _ => cases h

/-- Settles O5: a window form is its row's command and its word `assembleWord_byte`; the converse is `assemble_eq_some`. -/
theorem assemblerFormsGiveTheirWords : Obligations.AssemblerFormsGiveTheirWords := by
  refine ⟨?_, rfl, ?_, fun m ops i => assemble_eq_some⟩
  · intro a n hn hle m op hmem
    obtain ⟨mk, hrow, hcommand⟩ := windowCommand_row (m, op) hmem
    have hword : ∀ b hi, b.alignment = some hi → (assemble m [a, b]).map encode
        = some (BitVec.ofNat 32 (op + (hi.toNat <<< 4) + (n <<< 8))) := by
      intro b hi hb
      rw [assemble_window hn hle hb, hcommand, Option.map_some, hrow.encode_eq, assembleWord_byte hi hle]
    exact ⟨hword .hi true rfl, hword .lo false rfl⟩
  · intro a n hn hle
    rw [assemble_batt hn hle, Option.map_some, encode, assembleWord_channel hle]

end Sys2Proof.Machine
end

section
/-! SUPPORT. Noninterference (30_encoding.md R106): the bytes a command reads, as `Rules.readsByte` lists them, and its end in
every state that agrees on them. -/

namespace Sys2Proof.Machine

open Sys2Proof.Rules

/-! ### The rules' words are the decoders' -/

theorem hasOverflow_eq {k : Nat} (w : Vector Nibble k) : hasOverflow w = ovf w := by
  rw [Bool.eq_iff_iff, ovf_iff, hasOverflow, decide_eq_true_eq]

theorem hasError_eq {k : Nat} (w : Vector Nibble k) : hasError w = err w := by
  rw [Bool.eq_iff_iff, err_iff, hasError, decide_eq_true_eq]

/-- R130's word is `decTemp`'s, by the classification. -/
theorem temperature_eq (w : Vector Nibble 3) : temperature w = decTemp w := by
  unfold temperature decTemp classify
  rw [hasOverflow_eq, hasError_eq]
  cases ovf w
  · cases err w
    · apply BitVec.eq_of_toNat_eq
      show ((BitVec.ofInt 16 (tenths w)).setWidth 32).toNat = (tempWord .valid (BitVec.ofInt 16 (tenths w))).toNat
      rw [tempWord_toNat, BitVec.toNat_setWidth_of_le (by decide)]
      simp [Tag.code]
    · rfl
  · rfl

/-- R132's word is `decHum`'s: two digits are at most 165, so VALUE's eight bits hold them. -/
theorem humidity_eq (w : Vector Nibble 2) : humidity w = decHum w := by
  unfold humidity decHum classify
  rw [hasOverflow_eq, hasError_eq]
  cases ovf w
  · cases err w
    · apply BitVec.eq_of_toNat_eq
      have hbound := bcd2_le w[0] w[1]
      show (BitVec.ofNat 32 (bcd2 w[0] w[1])).toNat = (humWord .valid (BitVec.ofNat 8 (bcd2 w[0] w[1]))).toNat
      rw [humWord_toNat, BitVec.toNat_ofNat, BitVec.toNat_ofNat, Nat.mod_eq_of_lt (by omega), Nat.mod_eq_of_lt (by omega)]
      simp [Tag.code]
    · rfl
  · rfl

/-! ### The bytes a full PARSE reads -/

theorem columnStart_eq_npos (c : Fin 9) (f : Fin 10) : columnStart c f = npos Config.params.pos0 c f := by
  unfold columnStart
  rw [← nibbleIndex_eq_ite]
  simp [npos, positionRom, Config.stride, Config.params]

theorem map_win_got {α : Type} {s : State} {n k : Nat} {g : Vector Nibble k → α} {v : α} {rs : List Nat} (hk : 0 < k)
    (h : (win s n k).map g = .got v rs) : ∃ w, holdsWindow s n w ∧ g w = v ∧ rs = windowReads n k := by
  obtain ⟨w, hw, hv⟩ := Fetch.map_got.mp h
  obtain ⟨hold, hrs⟩ := holds_of_win hk hw
  exact ⟨w, hold, hv, hrs⟩

/-- A timestamp unit reads its window only where its paired word is VALID (R167). -/
theorem tsmux_reads {p : Params} {s : State} {paired : Fetch Word} {n i : Nat} {v : Word} {rs : List Nat}
    (h : tsmux p s paired n = .got v rs) (hi : i ∈ rs) :
    ∃ u us, paired = .got u us ∧ tagField u = 0 ∧ inWindow n 8 i := by
  cases paired with
  | failed f fs => cases h
  | got u us =>
    by_cases ht : tagField u = 0
    · simp only [tsmux, if_pos ht] at h
      obtain ⟨w, -, -, rfl⟩ := map_win_got (by decide) h
      exact ⟨u, us, rfl, ht, (mem_windowReads (by decide)).mp hi⟩
    · simp only [tsmux, if_neg ht] at h
      obtain ⟨-, rfl⟩ := Fetch.got.inj h
      cases hi

section Columns

variable {s : State} {c : Fin 9} {i : Nat} {v : Word} {rs : List Nat}

theorem pairedValid_of_tempUnit {g : Fin 10} (hg : g = 0 ∨ g = 1)
    (h : tempUnit s (npos Config.params.pos0 c g) = .got v rs) (ht : tagField v = 0) : pairedValid s c g := by
  obtain ⟨w, hold, rfl, -⟩ := map_win_got (by decide) h
  rw [← columnStart_eq_npos] at hold
  exact .inl ⟨hg, w, hold, by rw [temperature_eq]; exact ht⟩

theorem pairedValid_of_humUnit {g : Fin 10} (hg : g = 5 ∨ g = 6)
    (h : humUnit s (npos Config.params.pos0 c g) = .got v rs) (ht : tagField v = 0) : pairedValid s c g := by
  obtain ⟨w, hold, rfl, -⟩ := map_win_got (by decide) h
  rw [← columnStart_eq_npos] at hold
  exact .inr ⟨hg, w, hold, by rw [humidity_eq]; exact ht⟩

theorem inReadSet_of_tempUnit {f : Fin 10} (hf : f = 0 ∨ f = 1 ∨ f = 2)
    (h : tempUnit s (npos Config.params.pos0 c f) = .got v rs) (hi : i ∈ rs) : inReadSet (pairedValid s) i := by
  obtain ⟨w, -, -, rfl⟩ := map_win_got (by decide) h
  rw [mem_windowReads (by decide), ← columnStart_eq_npos] at hi
  exact .inr (.inr (.inl ⟨c, f, hf, hi⟩))

theorem inReadSet_of_humUnit {f : Fin 10} (hf : f = 5 ∨ f = 6 ∨ f = 7)
    (h : humUnit s (npos Config.params.pos0 c f) = .got v rs) (hi : i ∈ rs) : inReadSet (pairedValid s) i := by
  obtain ⟨w, -, -, rfl⟩ := map_win_got (by decide) h
  rw [mem_windowReads (by decide), ← columnStart_eq_npos] at hi
  exact .inr (.inr (.inr (.inl ⟨c, f, hf, hi⟩)))

theorem inReadSet_of_tempTime {f g : Fin 10} (hfg : f = 3 ∧ g = 0 ∨ f = 4 ∧ g = 1)
    (h : tsmux Config.params s (tempUnit s (npos Config.params.pos0 c g)) (npos Config.params.pos0 c f) = .got v rs)
    (hi : i ∈ rs) : inReadSet (pairedValid s) i := by
  obtain ⟨u, us, hpaired, ht, hwin⟩ := tsmux_reads h hi
  rw [← columnStart_eq_npos] at hwin
  have hvalid := pairedValid_of_tempUnit (hfg.imp And.right And.right) hpaired ht
  exact .inr (.inr (.inr (.inr ⟨c, f, g, hfg.imp_right .inl, hvalid, hwin⟩)))

theorem inReadSet_of_humTime {f g : Fin 10} (hfg : f = 8 ∧ g = 5 ∨ f = 9 ∧ g = 6)
    (h : tsmux Config.params s (humUnit s (npos Config.params.pos0 c g)) (npos Config.params.pos0 c f) = .got v rs)
    (hi : i ∈ rs) : inReadSet (pairedValid s) i := by
  obtain ⟨u, us, hpaired, ht, hwin⟩ := tsmux_reads h hi
  rw [← columnStart_eq_npos] at hwin
  have hvalid := pairedValid_of_humUnit (hfg.imp And.right And.right) hpaired ht
  exact .inr (.inr (.inr (.inr ⟨c, f, g, .inr (.inr hfg), hvalid, hwin⟩)))

/-- A column reads bytes of the read set, by its unit (R161, R170). -/
theorem inReadSet_of_column {f : Fin 10} (h : column Config.params s c f = .got v rs) (hi : i ∈ rs) :
    inReadSet (pairedValid s) i := by
  match f with
  | 0 => exact inReadSet_of_tempUnit (.inl rfl) h hi
  | 1 => exact inReadSet_of_tempUnit (.inr (.inl rfl)) h hi
  | 2 => exact inReadSet_of_tempUnit (.inr (.inr rfl)) h hi
  | 3 => exact inReadSet_of_tempTime (.inl ⟨rfl, rfl⟩) h hi
  | 4 => exact inReadSet_of_tempTime (.inr ⟨rfl, rfl⟩) h hi
  | 5 => exact inReadSet_of_humUnit (.inl rfl) h hi
  | 6 => exact inReadSet_of_humUnit (.inr (.inl rfl)) h hi
  | 7 => exact inReadSet_of_humUnit (.inr (.inr rfl)) h hi
  | 8 => exact inReadSet_of_humTime (.inl ⟨rfl, rfl⟩) h hi
  | 9 => exact inReadSet_of_humTime (.inr ⟨rfl, rfl⟩) h hi

/-- The read phase of a full PARSE reads bytes of the read set only (R170). -/
theorem inReadSet_of_readFrame {fr : Frame} (h : readFrame Config.params s = .got fr rs) (hi : i ∈ rs) :
    inReadSet (pairedValid s) i := by
  obtain ⟨b, lane, -, -, hcol, -, rfl⟩ := readFrame_got h
  simp only [List.mem_append, List.mem_flatten, List.mem_ofFn, List.mem_singleton] at hi
  obtain (rfl | ⟨_, ⟨c, rfl⟩, hc⟩) | ⟨_, ⟨k, rfl⟩, hk⟩ := hi
  · exact .inl rfl
  · simp only [List.mem_flatten, List.mem_ofFn] at hc
    obtain ⟨_, ⟨f, rfl⟩, hf⟩ := hc
    exact inReadSet_of_column (hcol c f) hf
  · obtain rfl := List.mem_singleton.mp hk
    exact .inr (.inl (by omega))

end Columns

/-! ### A command in a state that agrees -/

/-- A window command is a function of one window, whose bytes are those it reads (R96). -/
theorem exec_windowRow {op : Nat} {mk : Byte → Bool → Instr} (h : WindowRow op mk) (byte : Byte) (hi : Bool) :
    ∃ k, 0 < k ∧ ∃ value : Vector Nibble k → Word,
      (∀ s, exec (mk byte hi) s = finishResult s ((win s (nibbleIndex byte.toNat hi) k).map value))
      ∧ ∀ s b, readsByte s b (mk byte hi) ↔ inWindow (nibbleIndex byte.toNat hi) k b := by
  have hwindow : ∀ k b, inWindow (2 * byte.toNat + (if hi then 0 else 1)) k b
      ↔ inWindow (nibbleIndex byte.toNat hi) k b := by
    intro k b
    rw [nibbleIndex_eq_ite]
  cases h with
  | nib =>
    exact ⟨1, by decide, fun w => w[0].setWidth 32,
      fun s => congrArg (finishResult s) (nib_eq_win s _ fun d => d.setWidth 32), fun _ => hwindow 1⟩
  | bcd2 | ovf2 | err2 | hum => exact ⟨2, by decide, _, fun _ => rfl, fun _ => hwindow 2⟩
  | ovf3 | err3 | temp => exact ⟨3, by decide, _, fun _ => rfl, fun _ => hwindow 3⟩
  | ts8 => exact ⟨8, by decide, _, fun _ => rfl, fun _ => hwindow 8⟩
  | ts10 => exact ⟨10, by decide, _, fun _ => rfl, fun _ => hwindow 10⟩

theorem sameRegisters_windowRow {op : Nat} {mk : Byte → Bool → Instr} (h : WindowRow op mk) {byte : Byte} {hi : Bool}
    {s s' : State} (hr : sameRegisters s s' (mk byte hi)) : s'.len = s.len := by
  cases h <;> exact hr

theorem battOk_agree {baseBit : Fin 8} {alarm alarm' : Vector Byte 12} (h0 : alarm'[0] = alarm[0])
    (h1 : alarm'[1] = alarm[1]) (c : Nat) : battOk baseBit alarm' c = battOk baseBit alarm c := by
  unfold battOk
  rw [h0, h1]

section Agree

variable {s s' t : State}

/-- A single-field command completes with the same RESULT and latch in every state that agrees on what it reads. -/
theorem exec_single_agree {i : Instr} (hi : i ≠ .parse)
    (hb : ∀ b, readsByte s b i → Memory.read s'.fb b = Memory.read s.fb b) (hr : sameRegisters s s' i)
    (h : exec i s = .next t) :
    ∃ v oor, t = afterResult s v oor ∧ exec i s' = .next (afterResult s' v oor) := by
  obtain ⟨op, mk, byte, al, hrow, rfl⟩ | rfl | ⟨ch, rfl⟩ := i.shape
  · obtain ⟨k, hk, value, hexec, hreads⟩ := exec_windowRow hrow byte al
    rw [hexec] at h
    obtain ⟨w, hold, rfl⟩ := finishResult_window_next hk value h
    have hold' : holdsWindow s' (nibbleIndex byte.toNat al) w :=
      holdsWindow_agree hold fun b hwin => hb b ((hreads s b).mpr hwin)
    refine ⟨_, _, rfl, ?_⟩
    rw [hexec, finishResult_window hk value hold', sameRegisters_windowRow hrow hr]
  · exact absurd rfl hi
  · obtain ⟨h0, h1⟩ := hr
    obtain rfl := Host.Outcome.next.inj h
    refine ⟨_, false, rfl, ?_⟩
    rw [← battOk_agree h0 h1]
    rfl

/-- PARSE completes with the same frame, SHORT and latch in every state that agrees on LEN and on the bytes it reads. -/
theorem exec_parse_agree (hb : ∀ b, readsByte s b .parse → Memory.read s'.fb b = Memory.read s.fb b)
    (hlen : s'.len = s.len) (h : exec .parse s = .next t) :
    ∃ short fr oor, t = afterParse s short fr oor ∧ exec .parse s' = .next (afterParse s' short fr oor) := by
  obtain ⟨hne, -⟩ | ⟨-, hshort, rfl⟩ | ⟨-, hfull, fr, rs, hread, rfl⟩ := exec_next h
  · exact absurd rfl hne
  · exact ⟨_, _, _, rfl, parse_next.mpr (.inl ⟨by rwa [hlen], rfl⟩)⟩
  · have hread' : readFrame Config.params s' = .got fr rs :=
      readFrame_agree hread fun b hmem => hb b ⟨hfull, inReadSet_of_readFrame hread hmem⟩
    refine ⟨_, _, _, rfl, parse_next.mpr (.inr ⟨by rwa [hlen], fr, rs, hread', ?_⟩)⟩
    rw [latched_congr hlen]

end Agree

/-- Settles O32: `exec_parse_agree` for PARSE, whose CAPT is the agreed CAPT_IN, and `exec_single_agree` for the others. -/
theorem commandDependsOnItsInputsOnly : Obligations.CommandDependsOnItsInputsOnly := by
  intro i s s' t hb hr h
  by_cases hi : i = .parse
  · subst hi
    obtain ⟨hlen, hcapt⟩ := hr
    obtain ⟨short, fr, oor, rfl, h'⟩ := exec_parse_agree hb hlen h
    exact ⟨_, h', rfl, rfl, fun hne => absurd rfl hne, fun _ => ⟨rfl, rfl, rfl, hcapt, rfl⟩⟩
  · obtain ⟨v, oor, rfl, h'⟩ := exec_single_agree hi hb hr h
    exact ⟨_, h', rfl, rfl, fun _ => rfl, fun he => absurd he hi⟩

end Sys2Proof.Machine
end

section
/-! SUPPORT. The rule of a window command (`windowRule`) from its row and its window, and the nibble and digit primitives by it
(40_nibble_primitives.md R110, R112, R113). -/

namespace Sys2Proof.Machine

open Sys2Proof.Rules

/-! ### The rule of a window command -/

/-- The words of a window row are those of its mask and match (R98). -/
theorem windowRow_mask_iff_decode {op : Nat} {mk : Byte → Bool → Instr} (h : WindowRow op mk) (v : Word) :
    v &&& 0xFFFF00EF = BitVec.ofNat 32 op ↔ decode v = .ok (mk (byteOf v) (hiOf v)) := by
  rw [windowMask_iff v ⟨op, h.op_lt⟩]
  constructor
  · rintro ⟨hop, h0, hch, h1⟩
    rw [h.decode_eq h0 h1 hop, windowForm, if_pos hch]
  · intro hd
    obtain ⟨-, hv⟩ := encode_of_decode hd
    rw [h.encode_eq] at hv
    rw [← hv]
    exact ⟨opOf_assembleWord h.op_lt _ _ _, res0Of_assembleWord h.op_lt _ _ _, chOf_assembleWord h.op_lt _ _ _,
      res1Of_assembleWord h.op_lt _ _ _⟩

/-- A start position's nibble lies in its byte (R71, R72). -/
theorem nibbleIndex_div_two (byte : Nat) (hi : Bool) : nibbleIndex byte hi / 2 = byte := by
  cases hi <;> simp only [nibbleIndex, Bool.toNat_true, Bool.toNat_false] <;> omega

/-- A command of a window row that commits `value` of its `k` nibbles meets the rule, where `top` is its window's last byte. -/
theorem windowRule_of_exec {op k : Nat} {mk : Byte → Bool → Instr} (hrow : WindowRow op mk) (hk : 0 < k)
    {top : Nat → Bool → Nat} {value : Vector Nibble k → Word}
    (htop : ∀ byte hi, windowTop (nibbleIndex byte hi) k = top byte hi)
    (hexec : ∀ byte hi s, exec (mk byte hi) s = finishResult s ((win s (nibbleIndex byte.toNat hi) k).map value)) :
    windowRule mk (BitVec.ofNat 32 op) k top value := by
  have hspan : ∀ (byte : Byte) (hi : Bool) (i : Nat),
      inWindow (nibbleIndex byte.toNat hi) k i ↔ byte.toNat ≤ i ∧ i ≤ top byte.toNat hi := by
    intro byte hi i
    rw [inWindow, nibbleIndex_div_two, htop]
  refine ⟨windowRow_mask_iff_decode hrow, fun byte hi s w hold => ?_, fun byte hi s => ?_⟩
  · rw [← nibbleIndex_eq_ite] at hold
    rw [hexec, finishResult_window hk value hold, htop]
  · rintro ⟨i, hlo, hhi, hfault⟩
    obtain ⟨j, f, hj, hf, hend⟩ := finishResult_window_fault hk value ⟨i, (hspan byte hi i).mpr ⟨hlo, hhi⟩, hfault⟩
    obtain ⟨hjlo, hjhi⟩ := (hspan byte hi j).mp hj
    exact ⟨j, f, hjlo, hjhi, hf, (hexec byte hi s).trans hend⟩

/-! ### The last byte of a window -/

theorem windowTop_one (byte : Nat) (hi : Bool) : windowTop (nibbleIndex byte hi) 1 = byte :=
  nibbleIndex_div_two byte hi

theorem windowTop_two (byte : Nat) (hi : Bool) :
    windowTop (nibbleIndex byte hi) 2 = if hi then byte else byte + 1 := by
  cases hi <;> simp only [windowTop, nibbleIndex_eq_ite, if_true, Bool.false_eq_true, if_false] <;> omega

/-! ### NIB and BCD2 -/

/-- NIB commits the one nibble of its window. -/
theorem exec_nib (byte : Byte) (hi : Bool) (s : State) : exec (.nib byte hi) s
    = finishResult s ((win s (nibbleIndex byte.toNat hi) 1).map fun w => w[0].setWidth 32) :=
  congrArg (finishResult s) (nib_eq_win s _ fun d => d.setWidth 32)

theorem exec_bcd2 (byte : Byte) (hi : Bool) (s : State) : exec (.bcd2 byte hi) s
    = finishResult s ((win s (nibbleIndex byte.toNat hi) 2).map fun w => BitVec.ofNat 32 (bcd2 w[0] w[1])) := rfl

/-- Settles O10: NIB is the row of OP 1, and its window is one nibble, in BYTE. -/
theorem nibReturnsTheRawNibble : Obligations.NibReturnsTheRawNibble :=
  windowRule_of_exec .nib (by decide) windowTop_one exec_nib

/-- Settles O11: BCD2 is the row of OP 2, and its window of two nibbles ends in BYTE for HI = 1 and in BYTE+1 for HI = 0. -/
theorem bcd2ReturnsTensAndUnits : Obligations.Bcd2ReturnsTensAndUnits :=
  windowRule_of_exec .bcd2 (by decide) windowTop_two exec_bcd2

/-! ### BCD2 against two NIBs -/

/-- A NIB that completes leaves its nibble's number in RESULT. -/
theorem exec_nib_next {byte : Byte} {hi : Bool} {s t : State} (h : exec (.nib byte hi) s = .next t) :
    ∃ d, nibbleAt s.fb (nibbleIndex byte.toNat hi) = some d ∧ t.result.toNat = d.toNat := by
  rw [exec_nib] at h
  obtain ⟨w, ⟨-, hnib⟩, rfl⟩ := finishResult_window_next (by decide) _ h
  exact ⟨w[0], hnib 0, BitVec.toNat_setWidth_of_le (by decide)⟩

/-- A BCD2 that completes leaves ten times its first nibble plus its second in RESULT, which holds every such number. -/
theorem exec_bcd2_next {byte : Byte} {hi : Bool} {s t : State} (h : exec (.bcd2 byte hi) s = .next t) :
    ∃ d0 d1, nibbleAt s.fb (nibbleIndex byte.toNat hi) = some d0
      ∧ nibbleAt s.fb (nibbleIndex byte.toNat hi + 1) = some d1 ∧ t.result.toNat = 10 * d0.toNat + d1.toNat := by
  rw [exec_bcd2] at h
  obtain ⟨w, ⟨-, hnib⟩, rfl⟩ := finishResult_window_next (by decide) _ h
  have hbound := bcd2_le w[0] w[1]
  have hvalue : (BitVec.ofNat 32 (bcd2 w[0] w[1])).toNat = bcd2 w[0] w[1] :=
    (BitVec.toNat_ofNat _ _).trans (Nat.mod_eq_of_lt (by omega))
  exact ⟨w[0], w[1], hnib 0, hnib 1, hvalue⟩

/-- R113(b) for any two start positions whose nibbles follow each other. -/
theorem bcd2_result_of_nibs {byte next : Byte} {hi hi' : Bool} {s t u v : State}
    (hnext : nibbleIndex next.toNat hi' = nibbleIndex byte.toNat hi + 1) (ht : exec (.nib byte hi) s = .next t)
    (hu : exec (.nib next hi') s = .next u) (hv : exec (.bcd2 byte hi) s = .next v) :
    v.result.toNat = 10 * t.result.toNat + u.result.toNat := by
  obtain ⟨d0, hd0, ht⟩ := exec_nib_next ht
  obtain ⟨d1, hd1, hu⟩ := exec_nib_next hu
  obtain ⟨e0, e1, he0, he1, hv⟩ := exec_bcd2_next hv
  obtain rfl : d0 = e0 := Option.some.inj (hd0.symm.trans he0)
  rw [hnext] at hd1
  obtain rfl : d1 = e1 := Option.some.inj (hd1.symm.trans he1)
  rw [hv, ht, hu]

/-- Settles O26: a byte's low nibble follows its high one, and the next byte's high nibble follows its low one. -/
theorem bcd2AgreesWithTwoNibs : Obligations.Bcd2AgreesWithTwoNibs := by
  constructor
  · intro byte s t u v
    exact bcd2_result_of_nibs rfl
  · intro byte next s t u v hbyte
    apply bcd2_result_of_nibs
    simp only [nibbleIndex_eq_ite, if_true, Bool.false_eq_true, if_false]
    omega

end Sys2Proof.Machine
end

section
/-! SUPPORT. The sentinel commands (41_sentinel_detect.md R122, R124 to R127): the predicates' result words, the rules of OVF2,
ERR2, OVF3 and ERR3, and the TAGs of TEMP and HUM against them. -/

namespace Sys2Proof.Machine

open Sys2Proof.Rules

/-! ### The commands as functions of one window -/

theorem windowTop_three (byte : Nat) (hi : Bool) : windowTop (nibbleIndex byte hi) 3 = byte + 1 := by
  cases hi <;> simp only [windowTop, nibbleIndex_eq_ite, if_true, Bool.false_eq_true, if_false] <;> omega

section Exec

variable (byte : Byte) (hi : Bool) (s : State)

theorem exec_ovf2 : exec (.ovf2 byte hi) s
    = finishResult s ((win s (nibbleIndex byte.toNat hi) 2).map fun w => boolWord (ovf w)) := rfl

theorem exec_err2 : exec (.err2 byte hi) s
    = finishResult s ((win s (nibbleIndex byte.toNat hi) 2).map fun w => boolWord (err w)) := rfl

theorem exec_ovf3 : exec (.ovf3 byte hi) s
    = finishResult s ((win s (nibbleIndex byte.toNat hi) 3).map fun w => boolWord (ovf w)) := rfl

theorem exec_err3 : exec (.err3 byte hi) s
    = finishResult s ((win s (nibbleIndex byte.toNat hi) 3).map fun w => boolWord (err w)) := rfl

theorem exec_temp : exec (.temp byte hi) s
    = finishResult s ((win s (nibbleIndex byte.toNat hi) 3).map decTemp) := rfl

theorem exec_hum : exec (.hum byte hi) s
    = finishResult s ((win s (nibbleIndex byte.toNat hi) 2).map decHum) := rfl

end Exec

/-! ### OVF2, ERR2, OVF3 and ERR3 -/

/-- The rules' 1 or 0 of a truth value is the model's result word (R11). -/
theorem bit_eq_boolWord (b : Bool) : bit b = boolWord b := by cases b <;> rfl

theorem bit_hasOverflow {k : Nat} (w : Vector Nibble k) : bit (hasOverflow w) = boolWord (ovf w) := by
  rw [hasOverflow_eq, bit_eq_boolWord]

theorem bit_hasError {k : Nat} (w : Vector Nibble k) : bit (hasError w) = boolWord (err w) := by
  rw [hasError_eq, bit_eq_boolWord]

/-- Settles O12: OVF2 and ERR2 are the rows of OP 3 and 4 over two nibbles, and commit `ovf` and `err`, R120 and R121. -/
theorem ovf2AndErr2ReturnThePredicates : Obligations.Ovf2AndErr2ReturnThePredicates := by
  unfold Obligations.Ovf2AndErr2ReturnThePredicates
  simp only [bit_hasOverflow, bit_hasError]
  exact ⟨windowRule_of_exec .ovf2 (by decide) windowTop_two exec_ovf2,
    windowRule_of_exec .err2 (by decide) windowTop_two exec_err2⟩

/-- Settles O13: OVF3 and ERR3 are the rows of OP 5 and 6, whose three nibbles end in BYTE+1 for both alignments. -/
theorem ovf3AndErr3ReturnThePredicates : Obligations.Ovf3AndErr3ReturnThePredicates := by
  unfold Obligations.Ovf3AndErr3ReturnThePredicates
  simp only [bit_hasOverflow, bit_hasError]
  exact ⟨windowRule_of_exec .ovf3 (by decide) windowTop_three exec_ovf3,
    windowRule_of_exec .err3 (by decide) windowTop_three exec_err3⟩

/-! ### The TAGs of TEMP and HUM against the predicates -/

theorem boolWord_eq_one_iff (b : Bool) : boolWord b = 1 ↔ b = true := by cases b <;> decide

theorem boolWord_eq_zero_iff (b : Bool) : boolWord b = 0 ↔ b = false := by cases b <;> decide

theorem Tag.code_eq_two_iff (tag : Tag) : tag.code = 2 ↔ tag = .outOfLimits := by cases tag <;> decide

theorem Tag.code_eq_one_iff (tag : Tag) : tag.code = 1 ↔ tag = .notPresent := by cases tag <;> decide

/-- A command that commits a word tagged by its window's classification agrees with the predicates of the same window (R122):
all three commands found the same nibbles there. -/
theorem tag_iff_predicates {s t o e : State} {n k : Nat} (hk : 0 < k) {decoded : Vector Nibble k → Word}
    (htag : ∀ w, tagField (decoded w) = (classify w).code)
    (ht : finishResult s ((win s n k).map decoded) = .next t)
    (ho : finishResult s ((win s n k).map fun w => boolWord (ovf w)) = .next o)
    (he : finishResult s ((win s n k).map fun w => boolWord (err w)) = .next e) :
    (tagField t.result = 2 ↔ o.result = 1) ∧ (tagField t.result = 1 ↔ o.result = 0 ∧ e.result = 1) := by
  obtain ⟨w, hold, rfl⟩ := finishResult_window_next hk _ ht
  rw [finishResult_window hk _ hold] at ho he
  obtain rfl := Host.Outcome.next.inj ho
  obtain rfl := Host.Outcome.next.inj he
  show (tagField (decoded w) = 2 ↔ boolWord (ovf w) = 1)
    ∧ (tagField (decoded w) = 1 ↔ boolWord (ovf w) = 0 ∧ boolWord (err w) = 1)
  rw [htag, Tag.code_eq_two_iff, Tag.code_eq_one_iff, classify_outOfLimits_iff, classify_notPresent_iff]
  simp only [boolWord_eq_one_iff, boolWord_eq_zero_iff, and_self]

/-- Settles O27: TEMP over OVF3's and ERR3's window, and HUM over OVF2's and ERR2's. -/
theorem tagsAgreeWithThePredicates : Obligations.TagsAgreeWithThePredicates := by
  constructor
  · intro byte hi s t o e ht ho he
    exact tag_iff_predicates (by decide) tagField_decTemp ht ho he
  · intro byte hi s t o e ht ho he
    exact tag_iff_predicates (by decide) tagField_decHum ht ho he

end Sys2Proof.Machine
end

section
/-! SUPPORT. The field decoders (42_field_decoders.md R130 to R134): the rules of TEMP and HUM, and the formats of the words that
the decoders of readings and timestamps leave. -/

namespace Sys2Proof.Machine

open Sys2Proof.Rules

/-! ### TEMP and HUM -/

/-- Settles O14: TEMP is the row of OP 7, its three nibbles end in BYTE+1 for both alignments, and R130's word is `decTemp`'s. -/
theorem tempDecodesTenths : Obligations.TempDecodesTenths := by
  unfold Obligations.TempDecodesTenths
  rw [show temperature = decTemp from funext temperature_eq]
  exact windowRule_of_exec .temp (by decide) windowTop_three exec_temp

/-- Settles O15: HUM is the row of OP 8, its two nibbles end in BYTE or BYTE+1 by the alignment, and R132's word is `decHum`'s. -/
theorem humDecodesPercent : Obligations.HumDecodesPercent := by
  unfold Obligations.HumDecodesPercent
  rw [show humidity = decHum from funext humidity_eq]
  exact windowRule_of_exec .hum (by decide) windowTop_two exec_hum

/-! ### The formats of the decoded words -/

theorem exec_ts8 (byte : Byte) (hi : Bool) (s : State) : exec (.ts8 byte hi) s
    = finishResult s ((win s (nibbleIndex byte.toNat hi) 8).map (decTS8 Config.params.ts8ErrPattern)) := rfl

theorem exec_ts10 (byte : Byte) (hi : Bool) (s : State) : exec (.ts10 byte hi) s
    = finishResult s ((win s (nibbleIndex byte.toNat hi) 10).map decTS10) := rfl

/-- A reading's TAG is its classification's, so TAG 3 does not occur (R44). -/
theorem tagField_decTemp_ne_three (w : Vector Nibble 3) : tagField (decTemp w) ≠ 3 := by
  rw [tagField_decTemp]
  exact code_ne_three _

theorem tagField_decHum_ne_three (w : Vector Nibble 2) : tagField (decHum w) ≠ 3 := by
  rw [tagField_decHum]
  exact code_ne_three _

/-- A window command that completes leaves its decoder's word of some window in RESULT. -/
theorem exists_result_eq_decoded {s t : State} {n k : Nat} {decoded : Vector Nibble k → Word} (hk : 0 < k)
    (h : finishResult s ((win s n k).map decoded) = .next t) : ∃ w, t.result = decoded w := by
  obtain ⟨w, -, rfl⟩ := finishResult_window_next hk decoded h
  exact ⟨w, rfl⟩

/-- Settles O28: RESULT holds a word of the command's decoder, and each decoder's words are of its format. -/
theorem resultWordsStayInTheirDomains : Obligations.ResultWordsStayInTheirDomains := by
  intro byte hi s t
  rw [exec_temp, exec_hum, exec_ts8, exec_ts10]
  refine ⟨fun h => ?_, fun h => ?_, fun h => ?_, fun h => ?_⟩ <;>
    obtain ⟨w, hw⟩ := exists_result_eq_decoded (by decide) h <;> rw [hw]
  · exact ⟨decTemp_ok w, tagField_decTemp_ne_three w⟩
  · exact ⟨decHum_ok w, tagField_decHum_ne_three w⟩
  · exact decTS8_ok _ w
  · exact decTS10_ok w

end Sys2Proof.Machine
end

section
/-! SUPPORT. The timestamp decoders (43_timestamp_decoders.md R140 to R149): the rules' words are the decoders', the rules of TS8
and TS10, and the outcomes of the carry rule. -/

namespace Sys2Proof.Machine

open Sys2Proof.Rules

/-! ### The packed word of R140 -/

/-- A field of `len` bits at `lo`, or'ed into a word that is 0 below `lo + len`, is added to the word. -/
theorem or_field_toNat {v : Word} {a x lo len : Nat} (hv : v.toNat = 2 ^ (lo + len) * a) (hx : x < 2 ^ len)
    (hlen : lo + len ≤ 32) :
    (v ||| BitVec.ofNat 32 x <<< lo).toNat = 2 ^ lo * (2 ^ len * a + x) := by
  have hfield : 2 ^ lo * x < 2 ^ (lo + len) := by
    rw [Nat.pow_add]
    exact Nat.mul_lt_mul_of_pos_left hx (Nat.two_pow_pos lo)
  have hword : 2 ^ (lo + len) ≤ 2 ^ 32 := Nat.pow_le_pow_right (by decide) hlen
  have hx32 : x < 2 ^ 32 := lt_of_lt_of_le hx (Nat.pow_le_pow_right (by decide) (by omega))
  have hplace : (BitVec.ofNat 32 x <<< lo).toNat = 2 ^ lo * x := by
    rw [BitVec.toNat_shiftLeft, BitVec.toNat_ofNat, Nat.mod_eq_of_lt hx32, Nat.shiftLeft_eq, Nat.mul_comm,
      Nat.mod_eq_of_lt (by omega)]
  rw [BitVec.toNat_or, hv, hplace, ← Nat.two_pow_add_eq_or_of_lt hfield, Nat.pow_add, Nat.mul_assoc, ← Nat.mul_add]

/-- R140's six fields or'ed together, each within its bits, are the model's packed word. -/
theorem or_fields_eq_tsword {year month day hour minute : Nat} (hyear : year - 2000 < 2 ^ 8) (hmonth : month < 2 ^ 4)
    (hday : day < 2 ^ 5) (hhour : hour < 2 ^ 5) (hminute : minute < 2 ^ 6) :
    (1#32 <<< 31) ||| (BitVec.ofNat 32 (year - 2000) <<< 20) ||| (BitVec.ofNat 32 month <<< 16)
        ||| (BitVec.ofNat 32 day <<< 11) ||| (BitVec.ofNat 32 hour <<< 6) ||| BitVec.ofNat 32 minute
      = tsword year month day hour minute := by
  have hpresent : (1#32 <<< 31).toNat = 2 ^ (20 + 8) * 2 ^ 3 := rfl
  have hy := or_field_toNat (lo := 20) (len := 8) hpresent hyear (by decide)
  have hm := or_field_toNat (lo := 16) (len := 4) hy hmonth (by decide)
  have hd := or_field_toNat (lo := 11) (len := 5) hm hday (by decide)
  have hh := or_field_toNat (lo := 6) (len := 5) hd hhour (by decide)
  have hmin := or_field_toNat (lo := 0) (len := 6) hh hminute (by decide)
  rw [BitVec.shiftLeft_zero] at hmin
  apply BitVec.eq_of_toNat_eq
  rw [hmin, tsword_toNat]
  omega

/-- R140's word for a year of two digits is the model's: such a year is at most 2165, so its offset fits in eight bits. -/
theorem stamp_eq_checkedTs (tens units : Nibble) (month day hour minute : Nat) :
    stamp (2000 + 10 * tens.toNat + units.toNat) month day hour minute
      = checkedTs (Config.yearBase + bcd2 tens units) month day hour minute := by
  have hyear : 2000 + 10 * tens.toNat + units.toNat = 2000 + bcd2 tens units := Nat.add_assoc _ _ _
  have hbound := bcd2_le tens units
  rw [hyear]
  unfold stamp checkedTs Config.yearBase
  simp only [Nat.zero_le, true_and, calOk_iff]
  split
  · rw [or_fields_eq_tsword] <;> omega
  · rfl

/-! ### The last byte of a window of an even number of nibbles -/

theorem windowTop_even (m byte : Nat) (hi : Bool) :
    windowTop (nibbleIndex byte hi) (2 * (m + 1)) = if hi then byte + m else byte + (m + 1) := by
  cases hi <;> simp only [windowTop, nibbleIndex_eq_ite, if_true, Bool.false_eq_true, if_false] <;> omega

/-! ### TS8 -/

/-- R142's hour and minute are the model's. -/
theorem reconstruct_eq (tim1 tim2 tim3 : Nibble) :
    reconstruct tim1.toNat tim2.toNat tim3.toNat = (carryHour tim1 tim2, carryMinute tim2 tim3) := by
  unfold reconstruct carryHour carryMinute
  by_cases h : 10 ≤ tim2.toNat
  · simp only [if_pos h]
  · simp only [if_neg h, Nat.add_zero]

/-- R143's word is `decTS8`'s, whatever the error pattern is. -/
theorem timestamp8_eq (w : Vector Nibble 8) : timestamp8 w = decTS8 Config.params.ts8ErrPattern w := by
  unfold timestamp8 decTS8
  rw [reconstruct_eq, stamp_eq_checkedTs]
  rfl

/-- Settles O16: TS8 is the row of OP 9, its eight nibbles end in BYTE+3 or BYTE+4 by the alignment, and R143's word is
`decTS8`'s. -/
theorem ts8DecodesTheShortForm : Obligations.Ts8DecodesTheShortForm := by
  unfold Obligations.Ts8DecodesTheShortForm
  rw [show timestamp8 = decTS8 Config.params.ts8ErrPattern from funext timestamp8_eq]
  exact windowRule_of_exec .ts8 (by decide) (windowTop_even 3) exec_ts8

/-! ### TS10 -/

/-- R146 checks its five fields one by one; a nibble in 10..14 in one of them is one in the window. -/
theorem err_fields_eq (w : Vector Nibble 10) :
    (err #v[w[0], w[1]] || err #v[w[2], w[3]] || err #v[w[4], w[5]] || err #v[w[6], w[7]] || err #v[w[8], w[9]])
      = err w := by
  rw [Bool.eq_iff_iff]
  simp only [Bool.or_eq_true, err_iff, Fin.exists_fin_succ', IsEmpty.exists_iff, false_or, or_assoc]
  rfl

/-- R146's word is `decTS10`'s. -/
theorem timestamp10_eq (w : Vector Nibble 10) : timestamp10 w = decTS10 w := by
  unfold timestamp10 decTS10
  rw [hasError_eq, err_fields_eq, stamp_eq_checkedTs]
  rfl

/-- Settles O17: TS10 is the row of OP 10, its ten nibbles end in BYTE+4 or BYTE+5 by the alignment, and R146's word is
`decTS10`'s. -/
theorem ts10DecodesTheLongForm : Obligations.Ts10DecodesTheLongForm := by
  unfold Obligations.Ts10DecodesTheLongForm
  rw [show timestamp10 = decTS10 from funext timestamp10_eq]
  exact windowRule_of_exec .ts10 (by decide) (windowTop_even 4) exec_ts10

/-! ### The outcomes of the carry rule -/

section Carry

variable {tim1 tim2 tim3 : Nibble}

theorem carryHour_of_tim2_le (h : tim2.toNat ≤ 9) :
    carryHour tim1 tim2 = if 10 ≤ tim1.toNat then tim1.toNat + 10 else tim1.toNat := by
  rw [carryHour, if_neg (by omega : ¬ 10 ≤ tim2.toNat), Nat.add_zero]

/-- A tim2 of 10 or above carries 10 into the hour. -/
theorem carryHour_of_le_tim2 (h : 10 ≤ tim2.toNat) :
    carryHour tim1 tim2 = (if 10 ≤ tim1.toNat then tim1.toNat + 10 else tim1.toNat) + 10 := by
  rw [carryHour, if_pos h]

theorem carryMinute_of_tim2_le (h : tim2.toNat ≤ 9) : carryMinute tim2 tim3 = 10 * tim2.toNat + tim3.toNat := by
  rw [carryMinute, if_neg (by omega : ¬ 10 ≤ tim2.toNat), Nat.mul_comm]

theorem carryMinute_of_le_tim2 (h : 10 ≤ tim2.toNat) :
    carryMinute tim2 tim3 = 10 * (tim2.toNat - 10) + tim3.toNat := by
  rw [carryMinute, if_pos h, Nat.mul_comm]

/-- R149's second table: which minutes pass. -/
theorem carryMinute_le_iff : carryMinute tim2 tim3 ≤ 59 ↔
    tim2.toNat ≤ 4 ∨ (10 ≤ tim2.toNat ∧ tim2.toNat ≤ 14) ∨ ((tim2.toNat = 5 ∨ tim2.toNat = 15) ∧ tim3.toNat ≤ 9) := by
  have htim2 := tim2.isLt
  have htim3 := tim3.isLt
  rcases Nat.lt_or_ge tim2.toNat 10 with h | h
  · rw [carryMinute_of_tim2_le (by omega)]; omega
  · rw [carryMinute_of_le_tim2 h]; omega

end Carry

/-- The tim1 that gives an hour of 0..23: hours 10 to 19 have their ten from tim2, later ones from tim1 (R149). -/
def hourNibble (hour : Nat) : Nat := if hour ≤ 9 then hour else hour - 10

/-- The tim2 that gives a minute's tens together with an hour of 0..23 (R149). -/
def tensNibble (hour minute : Nat) : Nat := if 10 ≤ hour ∧ hour ≤ 19 then minute / 10 + 10 else minute / 10

/-- Three nibbles encode a valid time with tim3 at most 9 exactly where they are its `hourNibble`, `tensNibble` and minute units:
whether tim2 carries tells hours 10 to 19 from the others. -/
theorem carry_eq_iff {tim1 tim2 tim3 : Nibble} {hour minute : Nat} (hhour : hour ≤ 23) (hminute : minute ≤ 59)
    (htim3 : tim3.toNat ≤ 9) :
    carryHour tim1 tim2 = hour ∧ carryMinute tim2 tim3 = minute ↔
      tim1.toNat = hourNibble hour ∧ tim2.toNat = tensNibble hour minute ∧ tim3.toNat = minute % 10 := by
  unfold hourNibble tensNibble
  rcases Nat.lt_or_ge tim2.toNat 10 with h | h
  · rw [carryHour_of_tim2_le (by omega), carryMinute_of_tim2_le (by omega)]; split_ifs <;> omega
  · rw [carryHour_of_le_tim2 h, carryMinute_of_le_tim2 h]; split_ifs <;> omega

/-- An hour of 0..23 and a minute of 0..59 give nibbles. -/
theorem hourNibble_lt {hour : Nat} (h : hour ≤ 23) : hourNibble hour < 16 := by
  unfold hourNibble; split_ifs <;> omega

theorem tensNibble_lt {hour minute : Nat} (h : minute ≤ 59) : tensNibble hour minute < 16 := by
  unfold tensNibble; split_ifs <;> omega

/-- Every valid time has exactly one encoding with tim3 at most 9 (R149): the nibbles that `carry_eq_iff` names. -/
theorem exists_unique_carry_encoding {hour minute : Nat} (hhour : hour ≤ 23) (hminute : minute ≤ 59) :
    ∃ a b c : Nibble, (c.toNat ≤ 9 ∧ carryHour a b = hour ∧ carryMinute b c = minute)
      ∧ ∀ a' b' c' : Nibble, c'.toNat ≤ 9 → carryHour a' b' = hour → carryMinute b' c' = minute →
          a' = a ∧ b' = b ∧ c' = c := by
  have ha : (BitVec.ofNat 4 (hourNibble hour)).toNat = hourNibble hour := Nat.mod_eq_of_lt (hourNibble_lt hhour)
  have hb : (BitVec.ofNat 4 (tensNibble hour minute)).toNat = tensNibble hour minute :=
    Nat.mod_eq_of_lt (tensNibble_lt hminute)
  have hc : (BitVec.ofNat 4 (minute % 10)).toNat = minute % 10 := Nat.mod_eq_of_lt (by omega)
  have hc9 : (BitVec.ofNat 4 (minute % 10)).toNat ≤ 9 := by omega
  refine ⟨_, _, _, ⟨hc9, (carry_eq_iff hhour hminute hc9).mpr ⟨ha, hb, hc⟩⟩, fun a' b' c' hle hh hm => ?_⟩
  obtain ⟨ha', hb', hc'⟩ := (carry_eq_iff hhour hminute hle).mp ⟨hh, hm⟩
  exact ⟨BitVec.eq_of_toNat_eq (ha'.trans ha.symm), BitVec.eq_of_toNat_eq (hb'.trans hb.symm),
    BitVec.eq_of_toNat_eq (hc'.trans hc.symm)⟩

/-- Settles O29: the hours and the minutes by whether tim2 carries, and the one encoding. -/
theorem carryRuleOutcomes : Obligations.CarryRuleOutcomes := by
  refine ⟨fun tim1 tim2 => ⟨fun h h1 => ?_, fun h h1 => ?_, fun h h1 => ?_, fun h h1 => ?_⟩,
    fun tim2 tim3 => ⟨carryMinute_of_tim2_le, carryMinute_of_le_tim2, carryMinute_le_iff⟩,
    fun hour minute => exists_unique_carry_encoding⟩
  · rw [carryHour_of_tim2_le h, if_neg (by omega)]
  · rw [carryHour_of_tim2_le h, if_pos h1]
  · rw [carryHour_of_le_tim2 h, if_neg (by omega)]
  · rw [carryHour_of_le_tim2 h, if_pos h1]

end Sys2Proof.Machine
end

section
/-! SUPPORT. The frame demultiplexer apart from its reads (44_frame_demux.md R160 to R164, R171 to R174): BATT, the short PARSE,
what every PARSE leaves unchanged, the gating of its timestamps, and the position table. -/

namespace Sys2Proof.Machine

open Sys2Proof.Rules

/-! ### BATT -/

/-- The words of BATT's row are those whose fields but CH are an assembled BATT's (R98). -/
theorem battMask_iff (v : Word) : v &&& 0xFFF0FFFF = 0x0000000C ↔ encode (.batt (chOf v)) = v := by
  constructor
  · intro h
    have hfield : ∀ lo len : Nat, v.extractLsb' lo len &&& (0xFFF0FFFF#32).extractLsb' lo len
        = (0x0000000C#32).extractLsb' lo len := by
      intro lo len
      rw [← BitVec.extractLsb'_and]
      exact congrArg (BitVec.extractLsb' lo len) h
    have hlow : v.extractLsb' 0 16 = 12 := BitVec.and_allOnes.symm.trans (hfield 0 16)
    have hhigh : v.extractLsb' 20 12 = 0 := BitVec.and_allOnes.symm.trans (hfield 20 12)
    replace hlow : v.toNat / 2 ^ 0 % 2 ^ 16 = 12 := by rw [← field_toNat, hlow]; rfl
    rw [field_eq_zero] at hhigh
    have hv := v.isLt
    apply BitVec.eq_of_toNat_eq
    rw [encode, assembleWord_toNat (by decide), chOf_toNat, Bool.toNat_false, show (0 : Byte).toNat = 0 from rfl]
    omega
  · intro h
    have hrow : encode (.batt (chOf v)) &&& 0xFFF0FFFF = 0x0000000C := Laws.TableRow.batt (chOf v)
    rwa [h] at hrow

/-- BATT reads no FB byte, so it completes in every state (R174). -/
theorem exec_batt (ch : BitVec 4) (s : State) :
    exec (.batt ch) s = .next (afterResult s (bit (battOk Config.baseBattBit s.alarm ch.toNat)) false) := by
  rw [bit_eq_boolWord]
  rfl

/-- Settles O18: the words by `battMask_iff`, the result by the two cases of `battOk`. -/
theorem battReportsTheChannel : Obligations.BattReportsTheChannel := by
  refine ⟨fun v => ?_, fun s => ?_, fun ch s h1 _ => ?_⟩
  · have hwf : (Instr.batt (chOf v)).wellFormed = true ↔ (chOf v).toNat ≤ 8 := decide_eq_true_iff
    show _ ∧ (chOf v).toNat ≤ 8 ↔ decode v = .ok (.batt (chOf v))
    rw [decode_eq_ok_iff, hwf, battMask_iff, and_comm]
  · exact exec_batt 0 s
  · rw [exec_batt, battOk_channel _ _ h1]

/-! ### PARSE -/

theorem shortFrame_eq_defaultFrame : shortFrame = defaultFrame := by decide

/-- A short PARSE completes in every state (R164). -/
theorem exec_parse_short {s : State} (hlen : s.len.toNat < 230) :
    exec .parse s = .next (afterParse s true shortFrame false) := parse_next.mpr (.inl ⟨hlen, rfl⟩)

/-- Settles O19: a short PARSE commits the short frame, whose alarm bytes are 0, so every battery reads OK. -/
theorem shortParseWritesTheDefaults : Obligations.ShortParseWritesTheDefaults := by
  refine ⟨fun s hlen => ?_, fun s => ?_⟩
  · rw [← shortFrame_eq_defaultFrame]
    exact exec_parse_short hlen
  · show battWord Config.baseBattBit (Vector.replicate 12 0) = 0x000001FF
    decide

/-- Settles O31: every PARSE that completes is `afterParse` of some frame. -/
theorem parseLeavesResultAndInputs : Obligations.ParseLeavesResultAndInputs := by
  intro s t h
  obtain ⟨short, fr, oor, rfl, -⟩ := exec_parse_next h
  exact ⟨rfl, rfl, rfl, rfl, fun _ => rfl, rfl, rfl, rfl⟩

/-- Every PARSE that completes leaves lanes of the registers' formats (R45 to R48, R171). -/
theorem exec_parse_laneOk {s t : State} (h : exec .parse s = .next t) (c : Fin 9) : laneOk t.out[c] := by
  obtain ⟨hne, -⟩ | ⟨-, -, rfl⟩ | ⟨-, -, fr, rs, hread, rfl⟩ := exec_next h
  · exact absurd rfl hne
  · exact shortFrame_laneOk c
  · exact readFrame_laneOk hread c

/-- A gated pair, read from the paired word: where it is not VALID, the time is ABSENT. -/
theorem pairOk.absent {paired time : Word} (h : pairOk paired time) (ht : tagField paired ≠ 0) : time = 0 := by
  by_contra hne
  exact ht (h hne)

/-- Settles O25: the lanes' formats hold the four gated pairs. -/
theorem parsedFrameIsGated : Obligations.ParsedFrameIsGated := by
  intro s t h c
  refine ⟨exec_parse_laneOk h c, ?_⟩
  obtain ⟨-, -, -, hmaxTemp, hminTemp, hmaxHum, hminHum⟩ := exec_parse_laneOk h c
  exact ⟨hmaxTemp.absent, hminTemp.absent, hmaxHum.absent, hminHum.absent⟩

/-! ### The position table -/

theorem positionRom_get (p : Pos0) (c : Fin 9) (f : Fin 10) :
    (positionRom p)[c][f] = { byte := (Pos0.start p f).byte + 24 * c.val, hi := (Pos0.start p f).hi } := by
  simp [positionRom, Config.stride]

/-- Settles O24: each row is row 0 with 24 bytes, that is 48 nibbles, added for each channel. -/
theorem positionTableFollowsTheStride : Obligations.PositionTableFollowsTheStride := by
  intro p c f
  have hrow0 : (positionRom p)[0][f] = Pos0.start p f := positionRom_get p 0 f
  rw [positionRom_get, positionRom_get, hrow0]
  refine ⟨rfl, rfl, ?_, congrArg (· + 24 * c.val) (start_zero_byte p), npos_window_fits p c f⟩
  rw [npos_eq, npos_eq]
  rfl

end Sys2Proof.Machine
end

section
/-! SUPPORT. The read phase of a full PARSE (44_frame_demux.md R163 to R170): each column in the rules' terms, the bytes it reads,
its faults, and the frame it decodes from an image. -/

namespace Sys2Proof.Machine

open Sys2Proof.Rules

/-! ### The columns by their kind -/

/-- Column `f` holds the time of column `g`, with which it is paired (R161). -/
def timePair (f g : Fin 10) : Prop := (f = 3 ∧ g = 0) ∨ (f = 4 ∧ g = 1) ∨ (f = 8 ∧ g = 5) ∨ (f = 9 ∧ g = 6)

/-- A column is a temperature, a humidity, or the time of another (R161). -/
theorem column_kind (f : Fin 10) :
    (f = 0 ∨ f = 1 ∨ f = 2) ∨ (f = 5 ∨ f = 6 ∨ f = 7) ∨ ∃ g, timePair f g := by
  unfold timePair
  revert f
  decide

/-- The column a time is paired with is a temperature or a humidity. -/
theorem timePair.kind {f g : Fin 10} (h : timePair f g) : (g = 0 ∨ g = 1) ∨ (g = 5 ∨ g = 6) := by
  obtain ⟨-, hg⟩ | ⟨-, hg⟩ | ⟨-, hg⟩ | ⟨-, hg⟩ := h <;> simp [hg]

section Column

variable (s : State) (c : Fin 9) {f g : Fin 10}

theorem column_temperature (hf : f = 0 ∨ f = 1 ∨ f = 2) :
    column Config.params s c f = (win s (columnStart c f) 3).map temperature := by
  rw [columnStart_eq_npos, funext temperature_eq]
  obtain rfl | rfl | rfl := hf <;> rfl

theorem column_humidity (hf : f = 5 ∨ f = 6 ∨ f = 7) :
    column Config.params s c f = (win s (columnStart c f) 2).map humidity := by
  rw [columnStart_eq_npos, funext humidity_eq]
  obtain rfl | rfl | rfl := hf <;> rfl

theorem column_time (hfg : timePair f g) :
    column Config.params s c f = tsmux Config.params s (column Config.params s c g) (columnStart c f) := by
  rw [columnStart_eq_npos]
  obtain ⟨rfl, rfl⟩ | ⟨rfl, rfl⟩ | ⟨rfl, rfl⟩ | ⟨rfl, rfl⟩ := hfg <;> rfl

/-- The window of a time column is read where its paired word is VALID (R167). -/
theorem tsmux_valid {u : Word} (us : List Nat) (n : Nat) (ht : tagField u = 0) :
    tsmux Config.params s (.got u us) n = (win s n 8).map timestamp8 := by
  rw [funext timestamp8_eq]
  exact if_pos ht

theorem tsmux_gatedOff {u : Word} (us : List Nat) (n : Nat) (ht : tagField u ≠ 0) :
    tsmux Config.params s (.got u us) n = .got 0 [] := if_neg ht

end Column

/-- The window of a time's paired column was written and is VALID exactly when that column reads a VALID word. -/
theorem pairedValid_iff {s : State} {c : Fin 9} {f g : Fin 10} (hfg : timePair f g) :
    pairedValid s c g ↔ ∃ u us, column Config.params s c g = .got u us ∧ tagField u = 0 := by
  constructor
  · rintro (⟨hg, w, hold, ht⟩ | ⟨hg, w, hold, ht⟩)
    · exact ⟨_, _, by rw [column_temperature s c (by omega), win_of_holds (by decide) hold]; rfl, ht⟩
    · exact ⟨_, _, by rw [column_humidity s c (by omega), win_of_holds (by decide) hold]; rfl, ht⟩
  · rintro ⟨u, us, hu, ht⟩
    obtain hg | hg := hfg.kind
    · rw [column_temperature s c (by omega)] at hu
      obtain ⟨w, hold, rfl, -⟩ := map_win_got (by decide) hu
      exact .inl ⟨hg, w, hold, ht⟩
    · rw [column_humidity s c (by omega)] at hu
      obtain ⟨w, hold, rfl, -⟩ := map_win_got (by decide) hu
      exact .inr ⟨hg, w, hold, ht⟩

/-! ### The read set -/

/-- The read set grows with the words that are VALID. -/
theorem inReadSet_mono {valid valid' : Fin 9 → Fin 10 → Prop} {i : Nat}
    (h : ∀ c f g, timePair f g → valid c g → valid' c g) (hi : inReadSet valid i) : inReadSet valid' i := by
  obtain hi | hi | hi | hi | ⟨c, f, g, hfg, hv, hwin⟩ := hi
  · exact .inl hi
  · exact .inr (.inl hi)
  · exact .inr (.inr (.inl hi))
  · exact .inr (.inr (.inr (.inl hi)))
  · exact .inr (.inr (.inr (.inr ⟨c, f, g, hfg, h c f g hfg hv, hwin⟩)))

/-- Column `f`'s window of `k` nibbles lies in the frame buffer (R9(b)). -/
theorem columnStart_fits (c : Fin 9) {f : Fin 10} {k : Nat} (hk : columnWidth f = k) : columnStart c f + k ≤ 512 := by
  rw [columnStart_eq_npos, ← hk]
  exact npos_window_fits _ c f

theorem columnWidth_temperature {f : Fin 10} (hf : f = 0 ∨ f = 1 ∨ f = 2) : columnWidth f = 3 := by
  obtain rfl | rfl | rfl := hf <;> rfl

theorem columnWidth_humidity {f : Fin 10} (hf : f = 5 ∨ f = 6 ∨ f = 7) : columnWidth f = 2 := by
  obtain rfl | rfl | rfl := hf <;> rfl

theorem columnWidth_time {f g : Fin 10} (hfg : timePair f g) : columnWidth f = 8 := by
  obtain ⟨rfl, -⟩ | ⟨rfl, -⟩ | ⟨rfl, -⟩ | ⟨rfl, -⟩ := hfg <;> rfl

theorem lt_capacity_of_inWindow {n k i : Nat} (hfit : n + k ≤ 512) (hk : 0 < k) (hi : inWindow n k i) : i < 256 := by
  obtain ⟨-, htop⟩ := hi
  unfold windowTop at htop
  omega

/-- The read set lies in the frame buffer. -/
theorem lt_capacity_of_inReadSet {valid : Fin 9 → Fin 10 → Prop} {i : Nat} (h : inReadSet valid i) : i < 256 := by
  obtain rfl | h | ⟨c, f, hf, h⟩ | ⟨c, f, hf, h⟩ | ⟨c, f, g, hfg, -, h⟩ := h
  · decide
  · omega
  · exact lt_capacity_of_inWindow (columnStart_fits c (columnWidth_temperature hf)) (by decide) h
  · exact lt_capacity_of_inWindow (columnStart_fits c (columnWidth_humidity hf)) (by decide) h
  · exact lt_capacity_of_inWindow (columnStart_fits c (columnWidth_time hfg)) (by decide) h

/-! ### The bytes a full PARSE reads -/

/-- A window that was read had each of its bytes read. -/
theorem mem_of_map_win_got {α : Type} {s : State} {n k i : Nat} {g : Vector Nibble k → α} {v : α} {rs : List Nat}
    (hk : 0 < k) (h : (win s n k).map g = .got v rs) (hi : inWindow n k i) : i ∈ rs := by
  obtain ⟨w, -, -, rfl⟩ := map_win_got hk h
  exact (mem_windowReads hk).mpr hi

/-- Settles O22: what is read lies in the read set by `inReadSet_of_readFrame`; and each part of the read set is the reads of a
part of the frame. -/
theorem parseReadsExactlyItsReadSet : Obligations.ParseReadsExactlyItsReadSet := by
  intro s fr rs h i
  obtain ⟨b, lane, -, -, hcol, -, hrs⟩ := readFrame_got h
  constructor
  · intro hi
    refine inReadSet_mono (fun c f g hfg hv => ?_) (inReadSet_of_readFrame h hi)
    obtain ⟨u, us, hu, ht⟩ := (pairedValid_iff hfg).mp hv
    rw [hcol c g] at hu
    obtain ⟨rfl, -⟩ := Fetch.got.inj hu
    exact ht
  · have hlane : ∀ {c f}, i ∈ lane c f → i ∈ rs := by
      intro c f hi
      rw [hrs]
      exact List.mem_append_left _ (List.mem_append_right _ (List.mem_flatten.mpr ⟨_, List.mem_ofFn.mpr ⟨c, rfl⟩,
        List.mem_flatten.mpr ⟨_, List.mem_ofFn.mpr ⟨f, rfl⟩, hi⟩⟩))
    rintro (rfl | ⟨hlo, hhi⟩ | ⟨c, f, hf, hwin⟩ | ⟨c, f, hf, hwin⟩ | ⟨c, f, g, hfg, hv, hwin⟩)
    · simp [hrs]
    · rw [hrs]
      exact List.mem_append_right _ (List.mem_flatten.mpr ⟨[i], List.mem_ofFn.mpr ⟨⟨i - 223, by omega⟩,
        congrArg (fun j => [j]) (Nat.add_sub_cancel' hlo)⟩, List.mem_singleton.mpr rfl⟩)
    · exact hlane (mem_of_map_win_got (by decide) ((column_temperature s c hf).symm.trans (hcol c f)) hwin)
    · exact hlane (mem_of_map_win_got (by decide) ((column_humidity s c hf).symm.trans (hcol c f)) hwin)
    · have hread := hcol c f
      rw [column_time s c hfg, hcol c g, tsmux_valid s _ _ hv] at hread
      exact hlane (mem_of_map_win_got (by decide) hread hwin)

/-! ### The faults of a full PARSE -/

section Faults

variable {s : State} {c : Fin 9} {f g : Fin 10} {e : Fault}

theorem mem_faults_column_temperature (hf : f = 0 ∨ f = 1 ∨ f = 2) :
    e ∈ (column Config.params s c f).faults ↔ ∃ i, inWindow (columnStart c f) 3 i ∧ readFault s i = some e := by
  rw [column_temperature s c hf, Fetch.faults_map, mem_faults_win (by decide)]

theorem mem_faults_column_humidity (hf : f = 5 ∨ f = 6 ∨ f = 7) :
    e ∈ (column Config.params s c f).faults ↔ ∃ i, inWindow (columnStart c f) 2 i ∧ readFault s i = some e := by
  rw [column_humidity s c hf, Fetch.faults_map, mem_faults_win (by decide)]

/-- A time column's faults are those of its paired column, and of its window where the paired word is VALID (R167). -/
theorem mem_faults_column_time (hfg : timePair f g) :
    e ∈ (column Config.params s c f).faults ↔
      e ∈ (column Config.params s c g).faults
      ∨ pairedValid s c g ∧ ∃ i, inWindow (columnStart c f) 8 i ∧ readFault s i = some e := by
  rw [column_time s c hfg, pairedValid_iff hfg]
  cases column Config.params s c g with
  | failed e' es => simp [tsmux, Fetch.faults]
  | got u us =>
    by_cases ht : tagField u = 0
    · rw [tsmux_valid s us _ ht, Fetch.faults_map, mem_faults_win (by decide)]
      simp [Fetch.faults, ht]
    · rw [tsmux_gatedOff s us _ ht]
      constructor
      · exact .inl
      · rintro (he | ⟨⟨v, vs, hv, h0⟩, -⟩)
        · exact he
        · obtain ⟨rfl, -⟩ := Fetch.got.inj hv
          exact absurd h0 ht

/-- A column's faults are those of bytes of the read set; a time's paired column counts with its own window (R166, R170). -/
theorem inReadSet_of_mem_faults_column (he : e ∈ (column Config.params s c f).faults) :
    ∃ i, inReadSet (pairedValid s) i ∧ readFault s i = some e := by
  have htemp : ∀ {f}, f = 0 ∨ f = 1 ∨ f = 2 → e ∈ (column Config.params s c f).faults →
      ∃ i, inReadSet (pairedValid s) i ∧ readFault s i = some e := by
    intro f hf he
    obtain ⟨i, hwin, he⟩ := (mem_faults_column_temperature hf).mp he
    exact ⟨i, .inr (.inr (.inl ⟨c, f, hf, hwin⟩)), he⟩
  have hhum : ∀ {f}, f = 5 ∨ f = 6 ∨ f = 7 → e ∈ (column Config.params s c f).faults →
      ∃ i, inReadSet (pairedValid s) i ∧ readFault s i = some e := by
    intro f hf he
    obtain ⟨i, hwin, he⟩ := (mem_faults_column_humidity hf).mp he
    exact ⟨i, .inr (.inr (.inr (.inl ⟨c, f, hf, hwin⟩))), he⟩
  obtain hf | hf | ⟨g, hfg⟩ := column_kind f
  · exact htemp hf he
  · exact hhum hf he
  · obtain he | ⟨hv, i, hwin, he⟩ := (mem_faults_column_time hfg).mp he
    · obtain hg | hg := hfg.kind
      · exact htemp (by omega) he
      · exact hhum (by omega) he
    · exact ⟨i, .inr (.inr (.inr (.inr ⟨c, f, g, hfg, hv, hwin⟩))), he⟩

theorem mem_faults_readFrame : e ∈ (readFrame Config.params s).faults ↔
    readFault s 4 = some e ∨ (∃ c f, e ∈ (column Config.params s c f).faults)
      ∨ ∃ k : Fin 12, readFault s (223 + k.val) = some e := by
  simp only [readFrame, readSigq, readLanes, readAlarm, Fetch.faults_both, Fetch.faults_map, List.mem_append,
    Fetch.mem_faults_collect, memRead_faults, Option.mem_toList, or_assoc]
  rfl

/-- A full PARSE's faults are those of the bytes of its read set (R163, R170). -/
theorem mem_faults_readFrame_iff_inReadSet : e ∈ (readFrame Config.params s).faults ↔
    ∃ i, inReadSet (pairedValid s) i ∧ readFault s i = some e := by
  rw [mem_faults_readFrame]
  constructor
  · rintro (he | ⟨c, f, he⟩ | ⟨k, he⟩)
    · exact ⟨4, .inl rfl, he⟩
    · exact inReadSet_of_mem_faults_column he
    · exact ⟨_, .inr (.inl (by omega)), he⟩
  · rintro ⟨i, rfl | ⟨hlo, hhi⟩ | ⟨c, f, hf, hwin⟩ | ⟨c, f, hf, hwin⟩ | ⟨c, f, g, hfg, hv, hwin⟩, he⟩
    · exact .inl he
    · exact .inr (.inr ⟨⟨i - 223, by omega⟩, (congrArg (readFault s) (Nat.add_sub_cancel' hlo)).trans he⟩)
    · exact .inr (.inl ⟨c, f, (mem_faults_column_temperature hf).mpr ⟨i, hwin, he⟩⟩)
    · exact .inr (.inl ⟨c, f, (mem_faults_column_humidity hf).mpr ⟨i, hwin, he⟩⟩)
    · exact .inr (.inl ⟨c, f, (mem_faults_column_time hfg).mpr (.inr ⟨hv, i, hwin, he⟩)⟩)

end Faults

/-- A PARSE that is not short ends by its read phase (R163). -/
theorem exec_parse_full {s : State} (hlen : 230 ≤ s.len.toNat) :
    exec .parse s = finishCommand s (readFrame Config.params s) (commitFrame false) :=
  if_neg (Nat.not_lt_of_le hlen)

/-- Within the capacity the fault of a read is that the byte is unwritten (R74). -/
theorem readFault_eq_some_iff {s : State} {i : Nat} {e : Fault} (hi : i < 256) :
    readFault s i = some e ↔ e = .fbUnwritten i ∧ Memory.read s.fb i = none := by
  unfold readFault Config.bufCap
  rw [if_neg (by omega)]
  by_cases h : Memory.read s.fb i = none <;> simp [h, eq_comm]

/-- Settles O21: a full PARSE faults with a fault of its read phase, and these are the unwritten bytes of its read set. -/
theorem parseFaultsOnUnwrittenBytesOnly : Obligations.ParseFaultsOnUnwrittenBytesOnly := by
  constructor
  · intro s f h
    by_cases hlen : 230 ≤ s.len.toNat
    · rw [exec_parse_full hlen] at h
      obtain ⟨i, hi, he⟩ := mem_faults_readFrame_iff_inReadSet.mp (finishCommand_fault h)
      have hcap := lt_capacity_of_inReadSet hi
      obtain ⟨rfl, hnone⟩ := (readFault_eq_some_iff hcap).mp he
      exact ⟨hlen, i, hcap, hi, rfl, hnone⟩
    · rw [exec_parse_short (Nat.lt_of_not_le hlen)] at h
      cases h
  · intro s i hlen hi hnone
    have hfault : Fault.fbUnwritten i ∈ (readFrame Config.params s).faults :=
      mem_faults_readFrame_iff_inReadSet.mpr
        ⟨i, hi, (readFault_eq_some_iff (lt_capacity_of_inReadSet hi)).mpr ⟨rfl, hnone⟩⟩
    obtain ⟨f, -, hf⟩ := finishCommand_of_fault (s := s) (commit := commitFrame false) (List.ne_nil_of_mem hfault)
    exact ⟨f, (exec_parse_full hlen).trans hf⟩

/-! ### The frame decoded from an image -/

section Image

variable (image : Nat → Byte) (c : Fin 9) {f g : Fin 10}

theorem frameOf_temperature (hf : f = 0 ∨ f = 1 ∨ f = 2) : (frameOf image).out[c][f] = temperatureAt image c f := by
  obtain rfl | rfl | rfl := hf <;> simp [frameOf]

theorem frameOf_humidity (hf : f = 5 ∨ f = 6 ∨ f = 7) : (frameOf image).out[c][f] = humidityAt image c f := by
  obtain rfl | rfl | rfl := hf <;> simp [frameOf]

theorem frameOf_time (hfg : timePair f g) :
    (frameOf image).out[c][f] = timeAt image (frameOf image).out[c][g] c f := by
  obtain ⟨rfl, rfl⟩ | ⟨rfl, rfl⟩ | ⟨rfl, rfl⟩ | ⟨rfl, rfl⟩ := hfg <;> simp [frameOf]

/-- A time's word, by the TAG of its paired word (R167). -/
theorem timeAt_valid {u : Word} (ht : tagField u = 0) :
    timeAt image u c f = timestamp8 (imageWindow image (columnStart c f) 8) := if_pos ht

theorem timeAt_gatedOff {u : Word} (ht : tagField u ≠ 0) : timeAt image u c f = 0 := if_neg ht

end Image

section HoldsImage

variable {s : State} {image : Nat → Byte} (h : holdsImageOn s image (inReadSet (imageValid image)))
include h

/-- A column whose window was written as in the image reads the decoded window. -/
theorem map_win_image {n k : Nat} (value : Vector Nibble k → Word) (hk : 0 < k) (hfit : n + k ≤ 512)
    (hwin : ∀ i, inWindow n k i → inReadSet (imageValid image) i) :
    (win s n k).map value = .got (value (imageWindow image n k)) (windowReads n k) := by
  rw [win_of_holds hk (holdsWindow_image hfit fun i hi => h i (hwin i hi))]
  rfl

theorem column_temperature_image (c : Fin 9) {f : Fin 10} (hf : f = 0 ∨ f = 1 ∨ f = 2) :
    column Config.params s c f = .got (frameOf image).out[c][f] (windowReads (columnStart c f) 3) := by
  rw [column_temperature s c hf, frameOf_temperature image c hf]
  exact map_win_image h _ (by decide) (columnStart_fits c (columnWidth_temperature hf))
    fun i hi => .inr (.inr (.inl ⟨c, f, hf, hi⟩))

theorem column_humidity_image (c : Fin 9) {f : Fin 10} (hf : f = 5 ∨ f = 6 ∨ f = 7) :
    column Config.params s c f = .got (frameOf image).out[c][f] (windowReads (columnStart c f) 2) := by
  rw [column_humidity s c hf, frameOf_humidity image c hf]
  exact map_win_image h _ (by decide) (columnStart_fits c (columnWidth_humidity hf))
    fun i hi => .inr (.inr (.inr (.inl ⟨c, f, hf, hi⟩)))

/-- A time column reads its window where the paired word is VALID, and nothing where it is not (R167). -/
theorem column_time_image (c : Fin 9) {f g : Fin 10} (hfg : timePair f g) {us : List Nat}
    (hg : column Config.params s c g = .got (frameOf image).out[c][g] us) :
    ∃ rs, column Config.params s c f = .got (frameOf image).out[c][f] rs := by
  rw [column_time s c hfg, hg, frameOf_time image c hfg]
  by_cases ht : tagField (frameOf image).out[c][g] = 0
  · rw [tsmux_valid s us _ ht, timeAt_valid image c ht]
    exact ⟨_, map_win_image h _ (by decide) (columnStart_fits c (columnWidth_time hfg))
      fun i hi => .inr (.inr (.inr (.inr ⟨c, f, g, hfg, ht, hi⟩)))⟩
  · rw [tsmux_gatedOff s us _ ht, timeAt_gatedOff image c ht]
    exact ⟨_, rfl⟩

theorem column_image (c : Fin 9) (f : Fin 10) :
    ∃ rs, column Config.params s c f = .got (frameOf image).out[c][f] rs := by
  obtain hf | hf | ⟨g, hfg⟩ := column_kind f
  · exact ⟨_, column_temperature_image h c hf⟩
  · exact ⟨_, column_humidity_image h c hf⟩
  · obtain hg | hg := hfg.kind
    · exact column_time_image h c hfg (column_temperature_image h c (by omega))
    · exact column_time_image h c hfg (column_humidity_image h c (by omega))

/-- A byte of the read set is read as the image has it. -/
theorem memRead_image {i : Nat} (hi : inReadSet (imageValid image) i) : memRead s i = .got (image i) [i] :=
  memRead_got.mpr ⟨lt_capacity_of_inReadSet hi, h i hi, rfl⟩

/-- The read phase gives the image's frame. -/
theorem readFrame_image : ∃ rs, readFrame Config.params s = .got (frameOf image) rs := by
  choose lane hlane using column_image h
  have hsigq : readSigq s = .got (frameOf image).sigq [4] := congrArg (Fetch.map _) (memRead_image h (.inl rfl))
  have hlanes : readLanes Config.params s = .got (Vector.ofFn fun c => Vector.ofFn fun f => (frameOf image).out[c][f]) _ :=
    Fetch.collect_of_got fun c => Fetch.collect_of_got (hlane c)
  have halarm : readAlarm s = .got (frameOf image).alarm _ :=
    Fetch.collect_of_got fun k => memRead_image h (.inr (.inl (by unfold Config.alarmBase; omega)))
  have hout : (Vector.ofFn fun c => Vector.ofFn fun f => (frameOf image).out[c][f]) = (frameOf image).out := by
    simp
  rw [hout] at hlanes
  unfold readFrame
  rw [hsigq, hlanes, halarm]
  exact ⟨_, rfl⟩

end HoldsImage

/-- Settles O20: the read phase gives the image's frame, and its reads are the read set (O22), which decides the latch. -/
theorem fullParseDecodesTheFrame : Obligations.FullParseDecodesTheFrame := by
  intro s image hlen h
  obtain ⟨rs, hread⟩ := readFrame_image h
  refine ⟨s.latched rs, ?_, parse_next.mpr (.inr ⟨hlen, _, rs, hread, rfl⟩)⟩
  have hreads : ∀ i, i ∈ rs ↔ inReadSet (imageValid image) i := parseReadsExactlyItsReadSet s _ rs hread
  simp only [State.latched, List.any_eq_true, decide_eq_true_eq, hreads]

end Sys2Proof.Machine
end

section
/-! SUPPORT. How a command can end (60_exceptions.md R190, R195): it completes or reports one of its reads that cannot be made;
and the idle block (R206). -/

namespace Sys2Proof.Machine

/-! ### The end of a command -/

/-- A read that cannot be made is beyond the capacity or of an unwritten byte (R74, R195). -/
theorem readFault_eq_some_cases {s : State} {j : Nat} {f : Fault} (h : readFault s j = some f) :
    (f = .fbBeyondCapacity j ∧ 256 ≤ j) ∨ (f = .fbUnwritten j ∧ j < 256 ∧ Memory.read s.fb j = none) := by
  by_cases hj : j < 256
  · obtain ⟨hf, hnone⟩ := (readFault_eq_some_iff hj).mp h
    exact .inr ⟨hf, hj, hnone⟩
  · have hcap : 256 ≤ j := Nat.le_of_not_lt hj
    have hbeyond : readFault s j = some (.fbBeyondCapacity j) := if_pos hcap
    rw [hbeyond] at h
    exact .inl ⟨(Option.some.inj h).symm, hcap⟩

/-- Every command ends by the common end of a legal command, and the faults of its reads are those of single bytes: a window
command reads its window, a full PARSE its read set, a short PARSE and BATT nothing. -/
theorem exec_eq_finishCommand (i : Instr) (s : State) :
    ∃ (α : Type) (r : Fetch α) (commit : State → α → State), exec i s = finishCommand s r commit
      ∧ ∀ f ∈ r.faults, ∃ j, readFault s j = some f := by
  obtain ⟨op, mk, byte, hi, hrow, rfl⟩ | rfl | ⟨ch, rfl⟩ := i.shape
  · obtain ⟨k, hk, value, hexec, -⟩ := exec_windowRow hrow byte hi
    refine ⟨Word, _, _, hexec s, fun f hf => ?_⟩
    rw [Fetch.faults_map] at hf
    obtain ⟨j, -, hj⟩ := (mem_faults_win hk).mp hf
    exact ⟨j, hj⟩
  · by_cases hlen : s.len.toNat < 230
    · exact ⟨Frame, .got shortFrame [], commitFrame true, if_pos hlen, fun f hf => by cases hf⟩
    · refine ⟨Frame, _, _, exec_parse_full (Nat.le_of_not_lt hlen), fun f hf => ?_⟩
      obtain ⟨j, -, hj⟩ := mem_faults_readFrame_iff_inReadSet.mp hf
      exact ⟨j, hj⟩
  · exact ⟨Word, .got (boolWord (battOk Config.baseBattBit s.alarm ch.toNat)) [], fun t v => { t with result := v }, rfl,
      fun f hf => by cases hf⟩

/-- Settles O33: the common end of a command refuses nothing and reports one of its faulting reads. -/
theorem commandsEndNextOrInAModelFault : Obligations.CommandsEndNextOrInAModelFault := by
  intro i s
  obtain ⟨α, r, commit, hexec, hfaults⟩ := exec_eq_finishCommand i s
  rw [hexec]
  refine ⟨finishCommand_ne_refused s r commit, fun f h => ?_⟩
  obtain ⟨j, hj⟩ := hfaults f (finishCommand_fault h)
  exact (readFault_eq_some_cases hj).imp (fun hbeyond => ⟨j, hbeyond⟩) (fun hunwritten => ⟨j, hunwritten⟩)

/-! ### The idle block -/

/-- Settles O7: with no access pending, `step` takes its idle branch (R206, R213). -/
theorem idleBlockHoldsItsState : Obligations.IdleBlockHoldsItsState := by
  intro s hidle
  unfold step
  rw [hidle]

end Sys2Proof.Machine
end

section
/-! SUPPORT. How many bytes a full PARSE reads (70_reset_and_hazards.md R222): a window of k nibbles spans at most k/2 + 1 bytes. -/

namespace Sys2Proof.Machine

theorem windowReads_length_le (n k : Nat) : (windowReads n k).length ≤ k / 2 + 1 := by
  simp only [windowReads, List.length_map, List.length_range, spanLen]
  omega

theorem length_map_win_le {α : Type} {s : State} {n k : Nat} {g : Vector Nibble k → α} {v : α} {rs : List Nat}
    (hk : 0 < k) (h : (win s n k).map g = .got v rs) : rs.length ≤ k / 2 + 1 := by
  obtain ⟨w, -, -, rfl⟩ := map_win_got hk h
  exact windowReads_length_le n k

/-- A timestamp unit reads its own window or, where its paired word is not VALID, nothing (R167). -/
theorem length_tsmux_le {p : Params} {s : State} {paired : Fetch Word} {n : Nat} {v : Word} {rs : List Nat}
    (h : tsmux p s paired n = .got v rs) : rs.length ≤ 8 / 2 + 1 := by
  cases paired with
  | failed f fs => cases h
  | got u us =>
    by_cases ht : tagField u = 0
    · simp only [tsmux, if_pos ht] at h
      exact length_map_win_le (by decide) h
    · simp only [tsmux, if_neg ht] at h
      obtain ⟨-, rfl⟩ := Fetch.got.inj h
      exact Nat.zero_le _

theorem length_column_le {p : Params} {s : State} {c : Fin 9} {f : Fin 10} {v : Word} {rs : List Nat}
    (h : column p s c f = .got v rs) : rs.length ≤ columnWidth f / 2 + 1 := by
  unfold columnWidth
  unfold column at h
  cases hu : columnUnits[f] with
  | temp => rw [hu] at h; exact length_map_win_le (by decide) h
  | hum => rw [hu] at h; exact length_map_win_le (by decide) h
  | tempTime g => rw [hu] at h; exact length_tsmux_le h
  | humTime g => rw [hu] at h; exact length_tsmux_le h

theorem length_flatten_ofFn_le {α : Type} {n : Nat} {l : Fin n → List α} {bound : Fin n → Nat}
    (h : ∀ j, (l j).length ≤ bound j) : (List.ofFn l).flatten.length ≤ ∑ j, bound j := by
  rw [List.length_flatten, List.map_ofFn, List.sum_ofFn]
  exact Finset.sum_le_sum fun j _ => h j

/-- Settles O23: byte 4, the twelve alarm bytes, and in each of nine lanes ten columns, each bounded by `length_column_le`. -/
theorem parseMakesAtMost301Reads : Obligations.ParseMakesAtMost301Reads := by
  intro p s fr rs h
  obtain ⟨b, lane, -, -, hcol, -, rfl⟩ := readFrame_got h
  have hlane : ∀ c, (List.ofFn (lane c)).flatten.length ≤ ∑ f, (columnWidth f / 2 + 1) :=
    fun c => length_flatten_ofFn_le fun f => length_column_le (hcol c f)
  have hlanes := length_flatten_ofFn_le hlane
  have halarm := length_flatten_ofFn_le fun k : Fin 12 => Nat.le_refl [223 + k.val].length
  have hcolumns : ∑ f, (columnWidth f / 2 + 1) = 3 * 2 + 3 * 2 + 4 * 5 := by decide
  rw [hcolumns] at hlanes
  simp only [List.length_append, List.length_singleton, Finset.sum_const, Finset.card_univ, Fintype.card_fin,
    smul_eq_mul] at hlanes halarm ⊢
  omega

end Sys2Proof.Machine
end

section
/-! SUPPORT. A run of steps (20_memory.md R83): each step takes one access off the pending list, and what every step of a run
keeps, the run keeps (70_reset_and_hazards.md R220). -/

namespace Sys2Proof.Machine

/-! ### The pending accesses -/

/-- No command touches the accesses the host has still to issue. -/
theorem exec_next_pending {i : Instr} {s t : State} (h : exec i s = .next t) : t.pending = s.pending := by
  obtain ⟨-, v, oor, rfl⟩ | ⟨-, -, rfl⟩ | ⟨-, -, fr, rs, -, rfl⟩ := exec_next h
  · rfl
  · rfl
  · rfl

theorem Did.pending_eq {u t : State} {op : HostOp} (h : Did u op t) : t.pending = u.pending := by
  cases h with
  | command v i t hd he =>
    have hpending := exec_next_pending he
    exact hpending
  | fwr | frd | illegal | len | captIn | ignored | hrd | reset => rfl

theorem step_next_pending {s t : State} (h : step s = .next t) : t.pending = s.pending.tail := by
  obtain ⟨hp, rfl⟩ | ⟨op, rest, hp, hdid⟩ := step_next h
  · rw [hp]; rfl
  · rw [hp, hdid.pending_eq]; rfl

/-! ### Runs -/

/-- The inversion of a run of at least one step, on any machine. -/
theorem run_succ_next {M : Host.Core} {k : Nat} {s t : M.State} (h : M.run (k + 1) s = .next t) :
    ∃ u, M.step s = .next u ∧ M.run k u = .next t := by
  unfold Host.Core.run at h
  split at h
  case h_1 u hstep => exact ⟨u, hstep, h⟩
  all_goals cases h

theorem sameFrame.trans {s u t : State} (hsu : sameFrame s u) (hut : sameFrame u t) : sameFrame s t := by
  obtain ⟨hout, hsigq, hcapt, halarm⟩ := hsu
  obtain ⟨hout', hsigq', hcapt', halarm'⟩ := hut
  exact ⟨hout'.trans hout, hsigq'.trans hsigq, hcapt'.trans hcapt, halarm'.trans halarm⟩

/-- A run that issues neither a PARSE nor a reset keeps the frame registers, by induction on its steps. -/
theorem run_sameFrame {k : Nat} {s t : State} (h : Host.Core.run core k s = .next t)
    (hops : ∀ op ∈ s.pending.take k, ¬ Rules.isParse op ∧ op ≠ .reset) : sameFrame s t := by
  induction k generalizing s with
  | zero =>
    obtain rfl := Host.Outcome.next.inj h
    exact ⟨rfl, rfl, rfl, rfl⟩
  | succ k ih =>
    obtain ⟨u, hstep, hrun⟩ : ∃ u, step s = .next u ∧ Host.Core.run core k u = .next t := run_succ_next h
    have hfirst : sameFrame s u := onlyParseWritesTheFrame s u hstep fun op rest hp => hops op (by simp [hp])
    have htail : (s.pending.take (k + 1)).tail = u.pending.take k := by
      rw [step_next_pending hstep, List.tail_take_eq_take_tail, Nat.add_sub_cancel]
    exact hfirst.trans (ih hrun fun op hop => hops op (List.mem_of_mem_tail (htail ▸ hop)))

/-- BATT is derived from the alarm bytes at each read (R50). -/
theorem readRegister_batt (s : State) : readRegister s 0x07 = battWord Config.params.baseBattBit s.alarm := rfl

/-- Settles O49: `run_sameFrame`, and BATT is a function of the alarm bytes. -/
theorem frameIsASnapshotUntilTheNextParse : Obligations.FrameIsASnapshotUntilTheNextParse := by
  intro k s t hrun hops
  obtain ⟨hout, hsigq, hcapt, halarm⟩ := run_sameFrame hrun hops
  refine ⟨hout, hsigq, hcapt, halarm, ?_⟩
  rw [readRegister_batt, readRegister_batt, halarm]

end Sys2Proof.Machine
end

section
/-! SUPPORT. Reset (70_reset_and_hazards.md R210 to R212): the values it leaves, and that a read of a byte not written since
faults. -/

namespace Sys2Proof.Machine

/-! ### Reads of unwritten bytes -/

/-- A byte that was not written cannot be read, be it within the capacity or beyond (R74). -/
theorem readFault_isSome_of_unwritten {s : State} {i : Nat} (h : Memory.read s.fb i = none) :
    (readFault s i).isSome = true := by
  rw [Option.isSome_iff_ne_none, ne_eq, readFault_eq_none, h]
  simp

/-- A window command whose first byte was not written faults (R73, R195). -/
theorem exec_windowRow_unwritten {op : Nat} {mk : Byte → Bool → Instr} (hrow : WindowRow op mk) {byte : Byte} {hi : Bool}
    {s : State} (h : Memory.read s.fb byte.toNat = none) : ∃ f, exec (mk byte hi) s = .fault f := by
  obtain ⟨k, hk, value, hexec, -⟩ := exec_windowRow hrow byte hi
  have hfirst : inWindow (nibbleIndex byte.toNat hi) k byte.toNat := by
    have hbyte := nibbleIndex_div_two byte.toNat hi
    unfold inWindow windowTop
    omega
  obtain ⟨-, f, -, -, hf⟩ := finishResult_window_fault hk value ⟨_, hfirst, readFault_isSome_of_unwritten h⟩
  exact ⟨f, (hexec s).trans hf⟩

/-- Settles O45: the host's read is O43; a window command lacks its first byte, and a full PARSE byte 4. -/
theorem unwrittenBytesFaultAfterReset : Obligations.UnwrittenBytesFaultAfterReset := by
  refine ⟨fun i rest => ?_, fun i s hnone hparse hbatt => ?_, fun s hnone hlen => ?_⟩
  · obtain ⟨-, hunwritten⟩ := hostByteReadAnswersWrittenBytes { State.reset with pending := .frd i :: rest } i rest rfl
    exact hunwritten rfl
  · obtain ⟨op, mk, byte, hi, hrow, rfl⟩ | rfl | ⟨ch, rfl⟩ := i.shape
    · exact exec_windowRow_unwritten hrow (hnone byte.toNat)
    · exact absurd rfl hparse
    · exact absurd rfl (hbatt ch)
  · exact parseFaultsOnUnwrittenBytesOnly.2 s 4 hlen (.inl rfl) (hnone 4)

/-! ### The state after reset -/

theorem reset_out (c : Fin 9) : State.reset.out[c]
    = #v[0x00010000, 0x00010000, 0x00010000, 0, 0, 0x0001006E, 0x0001006E, 0x0001006E, 0, 0] := by
  simp [State.reset]

theorem reset_status : State.reset.status.toWord = 0x00000000 := by decide

theorem reset_alarm (k : Fin 12) : State.reset.alarm[k] = 0 := by
  simp [State.reset]

/-- Settles O44: the access is `resetEvent`, whose block is that of `State.reset`; BATT's reset value is O41's. -/
theorem resetSetsEveryRegister : Obligations.ResetSetsEveryRegister := by
  intro s rest hp
  obtain ⟨-, hbatt⟩ := battRegisterIsDerived
  exact ⟨resetEvent (s.issue rest), step_of_pending hp, rfl, reset_status, rfl, rfl, rfl, rfl, rfl, reset_out, reset_alarm,
    hbatt, rfl, fun _ => rfl, rfl, rfl⟩

/-- Settles O51: `inv_reset`. -/
theorem resetMeetsTheInvariant : Obligations.ResetMeetsTheInvariant := inv_reset

end Sys2Proof.Machine
end
